-- ==== Sys2Proof/Word.lean ====
section
/-! DEFINITION. The byte and the block (R8, R9 of 00_scope.md). -/

namespace Sys2Proof

/-- A byte is 8 bits (R8). -/
abbrev Byte := BitVec 8

/-- A block is a sequence of 32 bytes, byte 0 at the lowest offset (R9). A list: the one instruction
field that carries a block (the immediate of VLOADI) has its length checked in `Instr.wf`, and every
block the machine computes has 32 bytes (Laws/Lanes.lean). -/
abbrev Block := List Byte

end Sys2Proof
end

