-- ==== Sys2Proof/Config.lean ====
section
/-! DEFINITION. The types of the implementation parameters of R6 (00_scope.md) and the free value of
never-loaded memory. The parameters' VALUES stand in Machine/Params.lean. -/

namespace Sys2Proof

/-- The closed set of the 24 handlers (R65, R66, R84), each under the mnemonic of R66. -/
inductive Handler where
  | vmaddbw | vmaddwd | vxor | vor | vand | vxorc | vaddwu | vaddb
  | vsubb | vaddw | vsubw | vaddd | vsubd | vaddq | vsubq | vmullm
  | vmov | vloadi | vsrld | vslld | vshufb | vpermd | vcmpeqb | nop
  deriving DecidableEq, Repr

/-- One entry of the opcode table OPMAP: "(handler, operand-count)" (R31, R66). -/
structure OpRow where
  handler : Handler
  count : Nat
  deriving DecidableEq, Repr

/-- LANE_ORDER (R6, D3): which byte of a 16- or 32-bit lane stands at the lowest offset. -/
inductive LaneOrder where
  | little
  | big
  deriving DecidableEq, Repr

/-- SHUF_HALF_MODE (R6, R131, C2): the half of the data block a VSHUFB nibble selects in, always bytes
0 to 15 (`low`) or the half that holds the output byte (`localHalf`, the spec's `local`). -/
inductive ShufHalfMode where
  | low
  | localHalf
  deriving DecidableEq, Repr

/-- Which of the two non-destination operand bytes plays a role (R6: PERM_SELECTOR_OPERAND,
SHUF_MASK_OPERAND, SHIFT_COUNT_OPERAND). -/
inductive SourceOperand where
  | o2
  | o3
  deriving DecidableEq, Repr

/-- The parameters of R6 that are not fixed by the document. VERIFY_A, VERIFY_B and VERIFY_LEN are OPEN
(D18) and are arguments of the host operation that uses them. -/
structure Config where
  ramBase : Nat
  inputOff : Nat
  inputLen : Nat
  memSize : Nat
  opmap : List OpRow
  laneOrder : LaneOrder
  shufHalfMode : ShufHalfMode
  permSelectorOperand : SourceOperand
  shufMaskOperand : SourceOperand
  shiftCountOperand : SourceOperand
  resultA : Byte
  resultB : Byte
  deriving DecidableEq, Repr

/-- FREE VALUE (log 1): the byte at an address of a memory that no host loaded since the hardware reset,
"unspecified (every byte any value)" (R33, U7). It has no body, so nothing can be proved of it. -/
opaque Config.unloadedByte : Nat → Byte

end Sys2Proof
end

