-- ==== Sys2Proof/Machine/Params.lean ====
section
/-! DEFINITION. The values of the implementation parameters (R6), the opcode table (R66), its look-up
functions and the configuration check (R7). -/

namespace Sys2Proof

/-- The 24 handlers (R65). -/
def Handler.all : List Handler :=
  [.vmaddbw, .vmaddwd, .vxor, .vor, .vand, .vxorc, .vaddwu, .vaddb,
   .vsubb, .vaddw, .vsubw, .vaddd, .vsubd, .vaddq, .vsubq, .vmullm,
   .vmov, .vloadi, .vsrld, .vslld, .vshufb, .vpermd, .vcmpeqb, .nop]

/-- The eleven declared-inert handlers (R65, R150): a variant of its own, not an empty body. -/
def Handler.inert : Handler → Bool
  | .nop | .vaddw | .vaddq | .vsubb | .vsubw | .vsubd | .vsubq | .vmullm | .vmov | .vxorc | .vaddwu => true
  | .vmaddbw | .vmaddwd | .vxor | .vor | .vand | .vaddb | .vaddd | .vloadi | .vsrld | .vslld | .vshufb
  | .vpermd | .vcmpeqb => false

/-- IMM_BYTES for literal-load, nothing for the others (R6, R71). -/
def Handler.immBytes (h : Handler) : Nat := if h = .vloadi then 32 else 0

/-- The operand bytes a handler of the default table takes (R67). -/
def Handler.arity (h : Handler) : Nat :=
  if h = .nop then 0 else if h = .vloadi then 1 else if h = .vmov then 2 else 3

/-- The halt sentinel HALT (R6, R68). -/
def haltByte : Byte := 0xFF

/-- MAX_OPERANDS (R6). -/
def maxOperands : Nat := 3

/-- The length of the longest instruction, VLOADI (R61, R71). -/
def maxInstrBytes : Nat := 34

/-- The handlers in the order of their opcode bytes 0x00 to 0x17 (R66). -/
def handlersByOpcode : List Handler :=
  [.vmaddbw, .vmaddwd, .vxor, .vor, .vand, .vxorc, .vaddwu, .vaddb,       -- 0x00 to 0x07
   .vsubb, .vaddw, .vsubw, .vaddd, .vsubd, .vaddq, .vsubq, .vmullm,       -- 0x08 to 0x0F
   .vmov, .vloadi, .vsrld, .vslld, .vshufb, .vpermd, .vcmpeqb, .nop]      -- 0x10 to 0x17

/-- OPMAP as R66 and R67 give it: entry `op` is the row of opcode byte `op`. -/
def defaultOpmap : List OpRow := handlersByOpcode.map fun h => { handler := h, count := h.arity }

/-- The defaults of R6. -/
def Config.default : Config where
  ramBase := 0x800
  inputOff := 0x25
  inputLen := 0x20
  memSize := 0xC00
  opmap := defaultOpmap
  laneOrder := .little
  shufHalfMode := .low
  permSelectorOperand := .o2
  shufMaskOperand := .o3
  shiftCountOperand := .o3
  resultA := 1
  resultB := 0x1F

/-- The configuration `exec` and `step` run (DESIGN CHOICE, log 3: the spec's defaults). -/
def config : Config := Config.default

/-- R7's configuration check, and that OPMAP is a table of R31 and R65: 24 rows, each handler in exactly
one, counts 0 to 3, and the counts the document supports for the handlers with an effect (R67). -/
def Config.wf (c : Config) : Bool :=
  1 ≤ c.memSize && c.inputOff + c.inputLen ≤ c.memSize &&
  c.opmap.length == 24 &&
  Handler.all.all (fun h => (c.opmap.map (·.handler)).count h == 1) &&
  c.opmap.all (fun r => r.count ≤ maxOperands && (r.handler.inert || r.count == r.handler.arity))

/-- OPMAP(op) (R31, R82): no row for a byte that selects nothing. -/
def Config.rowOf (c : Config) (op : Byte) : Option OpRow := c.opmap[op.toNat]?

/-- The opcode byte that selects a handler (R66). -/
def Config.opcodeOf (c : Config) (h : Handler) : Byte :=
  BitVec.ofNat 8 ((c.opmap.map (·.handler)).findIdx (· == h))

/-- Count(op), by handler (R67, R71). -/
def Config.countOf (c : Config) (h : Handler) : Nat :=
  ((c.opmap.find? (·.handler == h)).map (·.count)).getD 0

/-- Length(op) = 1 + Count(op), and 32 more for VLOADI (R71). -/
def Config.lengthOf (c : Config) (h : Handler) : Nat := 1 + c.countOf h + h.immBytes

/-- BlockOffset(i) = RAM_BASE + 32*i, on natural numbers: nothing wraps (R42). -/
def Config.blockOffset (c : Config) (i : Byte) : Nat := c.ramBase + 32 * i.toNat

/-- An access of `n` bytes at offset `a` is in range exactly when `a + n <= MEM_SIZE` (R43). -/
def Config.inRange (c : Config) (a n : Nat) : Bool := a + n ≤ c.memSize

/-- Vector register `i` exists: its block lies inside MEM (R23). -/
def Config.blockFits (c : Config) (i : Byte) : Bool := c.inRange (c.blockOffset i) 32

end Sys2Proof
end

