-- ==== Sys2Proof/Syntax.lean ====
section
/-! DEFINITION. The instructions as syntax: one constructor per row of spec/opcode_table.json. Operand
bytes are named by stream position o1, o2, o3 (R11). -/

namespace Sys2Proof

/-- The 24 instructions of OPMAP (R66) in the table's order, and the halt sentinel (R68, log 16). -/
inductive Instr where
  | vmaddbw (o1 o2 o3 : Byte)
  | vmaddwd (o1 o2 o3 : Byte)
  | vxor (o1 o2 o3 : Byte)
  | vor (o1 o2 o3 : Byte)
  | vand (o1 o2 o3 : Byte)
  | vxorc (o1 o2 o3 : Byte)
  | vaddwu (o1 o2 o3 : Byte)
  | vaddb (o1 o2 o3 : Byte)
  | vsubb (o1 o2 o3 : Byte)
  | vaddw (o1 o2 o3 : Byte)
  | vsubw (o1 o2 o3 : Byte)
  | vaddd (o1 o2 o3 : Byte)
  | vsubd (o1 o2 o3 : Byte)
  | vaddq (o1 o2 o3 : Byte)
  | vsubq (o1 o2 o3 : Byte)
  | vmullm (o1 o2 o3 : Byte)
  | vmov (o1 o2 : Byte)
  | vloadi (o1 : Byte) (imm : Block)
  | vsrld (o1 o2 o3 : Byte)
  | vslld (o1 o2 o3 : Byte)
  | vshufb (o1 o2 o3 : Byte)
  | vpermd (o1 o2 o3 : Byte)
  | vcmpeqb (o1 o2 o3 : Byte)
  | nop
  | halt
  deriving DecidableEq, Repr

/-- The handler an instruction selects; the halt sentinel selects none (R62, R68). -/
def Instr.handler : Instr → Option Handler
  | .vmaddbw _ _ _ => some .vmaddbw
  | .vmaddwd _ _ _ => some .vmaddwd
  | .vxor _ _ _ => some .vxor
  | .vor _ _ _ => some .vor
  | .vand _ _ _ => some .vand
  | .vxorc _ _ _ => some .vxorc
  | .vaddwu _ _ _ => some .vaddwu
  | .vaddb _ _ _ => some .vaddb
  | .vsubb _ _ _ => some .vsubb
  | .vaddw _ _ _ => some .vaddw
  | .vsubw _ _ _ => some .vsubw
  | .vaddd _ _ _ => some .vaddd
  | .vsubd _ _ _ => some .vsubd
  | .vaddq _ _ _ => some .vaddq
  | .vsubq _ _ _ => some .vsubq
  | .vmullm _ _ _ => some .vmullm
  | .vmov _ _ => some .vmov
  | .vloadi _ _ => some .vloadi
  | .vsrld _ _ _ => some .vsrld
  | .vslld _ _ _ => some .vslld
  | .vshufb _ _ _ => some .vshufb
  | .vpermd _ _ _ => some .vpermd
  | .vcmpeqb _ _ _ => some .vcmpeqb
  | .nop => some .nop
  | .halt => none

/-- The operand bytes in stream order (R61, R63). -/
def Instr.operands : Instr → List Byte
  | .vmaddbw a b d | .vmaddwd a b d | .vxor a b d | .vor a b d | .vand a b d | .vxorc a b d | .vaddwu a b d
  | .vaddb a b d | .vsubb a b d | .vaddw a b d | .vsubw a b d | .vaddd a b d | .vsubd a b d | .vaddq a b d
  | .vsubq a b d | .vmullm a b d | .vsrld a b d | .vslld a b d | .vshufb a b d | .vpermd a b d
  | .vcmpeqb a b d => [a, b, d]
  | .vmov a b => [a, b]
  | .vloadi a _ => [a]
  | .nop | .halt => []

/-- The inline immediate (R64): 32 raw bytes for VLOADI, none for the others. -/
def Instr.imm : Instr → List Byte
  | .vloadi _ imm => imm
  | .vmaddbw _ _ _ | .vmaddwd _ _ _ | .vxor _ _ _ | .vor _ _ _ | .vand _ _ _ | .vxorc _ _ _ | .vaddwu _ _ _
  | .vaddb _ _ _ | .vsubb _ _ _ | .vaddw _ _ _ | .vsubw _ _ _ | .vaddd _ _ _ | .vsubd _ _ _ | .vaddq _ _ _
  | .vsubq _ _ _ | .vmullm _ _ _ | .vmov _ _ | .vsrld _ _ _ | .vslld _ _ _ | .vshufb _ _ _ | .vpermd _ _ _
  | .vcmpeqb _ _ _ | .nop | .halt => []

end Sys2Proof
end

