-- ==== Sys2Proof/WellFormed.lean ====
section
/-! DEFINITION. Which terms of `Instr` some byte stream stands for. -/

namespace Sys2Proof

/-- The immediate has the length the format gives it: IMM_BYTES = 32 for VLOADI (R61 format L, R64). -/
def Instr.immFits (i : Instr) : Bool :=
  match i.handler with
  | none => true
  | some h => i.imm.length == h.immBytes

/-- Under a table that gives an inert opcode fewer operand bytes than its constructor has (D2, log 13),
the operands beyond the count stand in no byte of the stream and are 0. Under the default table every
instruction passes. -/
def Instr.operandsFit (i : Instr) (c : Config := config) : Bool :=
  match i.handler with
  | none => true
  | some h => (i.operands.drop (c.countOf h)).all (· == 0)

/-- Well-formed under the configuration's OPMAP. -/
def Instr.wf (i : Instr) (c : Config := config) : Bool := i.immFits && i.operandsFit c

end Sys2Proof
end

