-- ==== Sys2Proof/Decode.lean ====
section
/-! DEFINITION. The decoder, total on any bytes (R60 to R71, R82), the encoder, and the host's view of an
opcode-table word. -/

namespace Sys2Proof

/-- What the decoder makes of the bytes that stand from an opcode position on. -/
inductive DecodeResult where
  /-- an instruction, and the bytes after it -/
  | ok (i : Instr) (rest : List Byte)
  /-- the opcode byte maps to no table entry (R69) -/
  | illegal (op : Byte)
  /-- the bytes end before a fetch is complete; `start` is where that fetch starts, counted from the
  opcode byte: 0 the opcode, 1 the operands, past the operands the immediate (R171, R175) -/
  | truncated (start : Nat)
  deriving DecidableEq, Repr

/-- The instruction a handler makes of its operand bytes and immediate (R61, R63, R64). -/
def Handler.instr (h : Handler) (o1 o2 o3 : Byte) (imm : Block) : Instr :=
  match h with
  | .vmaddbw => .vmaddbw o1 o2 o3
  | .vmaddwd => .vmaddwd o1 o2 o3
  | .vxor => .vxor o1 o2 o3
  | .vor => .vor o1 o2 o3
  | .vand => .vand o1 o2 o3
  | .vxorc => .vxorc o1 o2 o3
  | .vaddwu => .vaddwu o1 o2 o3
  | .vaddb => .vaddb o1 o2 o3
  | .vsubb => .vsubb o1 o2 o3
  | .vaddw => .vaddw o1 o2 o3
  | .vsubw => .vsubw o1 o2 o3
  | .vaddd => .vaddd o1 o2 o3
  | .vsubd => .vsubd o1 o2 o3
  | .vaddq => .vaddq o1 o2 o3
  | .vsubq => .vsubq o1 o2 o3
  | .vmullm => .vmullm o1 o2 o3
  | .vmov => .vmov o1 o2
  | .vloadi => .vloadi o1 imm
  | .vsrld => .vsrld o1 o2 o3
  | .vslld => .vslld o1 o2 o3
  | .vshufb => .vshufb o1 o2 o3
  | .vpermd => .vpermd o1 o2 o3
  | .vcmpeqb => .vcmpeqb o1 o2 o3
  | .nop => .nop

/-- Decoding past the opcode byte, for a byte that has a table row (R82, R140): first all operand bytes,
then, for VLOADI, the immediate. An operand the row does not count is 0 and is ignored (log 13). -/
def decodeRow (row : OpRow) (rest : List Byte) : DecodeResult :=
  if rest.length < row.count then .truncated 1
  else if (rest.drop row.count).length < row.handler.immBytes then .truncated (1 + row.count)
  else
    let ops := rest.take row.count
    .ok (row.handler.instr (ops.getD 0 0) (ops.getD 1 0) (ops.getD 2 0)
          ((rest.drop row.count).take row.handler.immBytes))
      (rest.drop (row.count + row.handler.immBytes))

/-- Decodes the instruction at the head of a byte stream, in the order of checks of R175: opcode byte,
halt sentinel, illegal opcode, operand bytes, immediate. -/
def decode (bytes : List Byte) (c : Config := config) : DecodeResult :=
  match bytes with
  | [] => .truncated 0
  | op :: rest =>
    if op = haltByte then .ok .halt rest
    else match c.rowOf op with
      | none => .illegal op
      | some row => decodeRow row rest

/-- The bytes of an instruction, from the formats of R61: opcode byte, the operand bytes its row counts,
the immediate; the halt sentinel is the one byte 0xFF (R68). -/
def encode (i : Instr) (c : Config := config) : List Byte :=
  match i.handler with
  | none => [haltByte]
  | some h =>
    c.opcodeOf h :: ((i.operands ++ List.replicate maxOperands 0).take (c.countOf h) ++ i.imm)

/-- The `n` bytes of a number, least significant first. -/
def wordBytes : Nat → Nat → List Byte
  | 0, _ => []
  | n + 1, w => BitVec.ofNat 8 (w % 256) :: wordBytes n (w / 256)

/-- The bytes of an opcode-table word of `nbits` bits (whole bytes), bit 0 the least significant bit of the
first byte, and zero bytes up to the length of the longest instruction. -/
def tableBytes (nbits w : Nat) : List Byte :=
  (wordBytes (nbits / 8) w ++ List.replicate maxInstrBytes 0).take maxInstrBytes

/-- The instruction the decoder reads from an opcode-table word. -/
def decodeTableWord (nbits w : Nat) : Option Instr :=
  match decode (tableBytes nbits w) with
  | .ok i _ => some i
  | .illegal _ => none
  | .truncated _ => none

end Sys2Proof
end

