-- ==== Sys2Proof/Machine/State.lean ====
section
/-! DEFINITION. The architectural state of the CORE (R20), its reasons to stop, and the state after
reset (R33). -/

namespace Sys2Proof.Machine

/-- STATUS, the run-control state (R20, R27). -/
inductive Status where
  | idle
  | running
  | halted
  | faulted
  deriving DecidableEq, Repr

/-- FAULT_CAUSE (R27, R170). -/
inductive FaultCause where
  | none
  | outOfRange
  | malformedProgram
  | permuteIndex
  deriving DecidableEq, Repr

/-- What `raise F(info)` carries (R10, R176). -/
structure FaultReport where
  cause : FaultCause
  info : Nat
  deriving DecidableEq, Repr

/-- MEM (R20, R21). `cells` lists bytes by rising address; an address it does not list reads as
`Memory.unlisted` (Machine/Ops.lean) says: 0 in a memory a host loaded, the free value in one that no host
loaded since the hardware reset (log 1, log 2). -/
structure Memory where
  loaded : Bool
  cells : List Host.Cell
  deriving DecidableEq, Repr

/-- The architectural state, "exactly this tuple" (R20). The vector registers are blocks of `mem` (R23);
there are no general registers (R22), flags (R26) or hidden state (R30). -/
structure State where
  mem : Memory
  ip : Nat
  status : Status
  faultCause : FaultCause
  faultPc : Nat
  faultInfo : Nat
  deriving DecidableEq, Repr

/-- Why a step answers no next state. The three faults of the spec (R170) are not here: taking one is a
next state with STATUS = FAULTED (R176, log 5). -/
inductive Fault where
  /-- Raised by `step` alone, when STATUS is not RUNNING: `Step` is not defined there and the CORE makes no
  step of its own (R85, R83, R178; log 6). Safe: nothing can be proved of a step from such a state. -/
  | notRunning (status : Status)
  deriving DecidableEq, Repr

/-- An instruction without a meaning. -/
inductive Refusal where
  /-- Raised by an arm of `exec` that has no meaning yet; no arm does. Safe. -/
  | notModelled (mnemonic : String)
  deriving DecidableEq, Repr

/-- The outcome of a step of this machine. -/
abbrev Result := Host.Outcome State Fault Refusal

/-- The state after a hardware reset (R33, R190): MEM unspecified, ip 0, IDLE, fault registers cleared. -/
def State.reset : State where
  mem := { loaded := false, cells := [] }
  ip := 0
  status := .idle
  faultCause := .none
  faultPc := 0
  faultInfo := 0

end Sys2Proof.Machine
end

