-- ==== Sys2Proof/Machine/Flags.lean ====
section
/-! DEFINITION. The machine has no flags, condition codes or predicate registers, and no instruction
computes one (R26). What a host can read of a run are the run-control registers; here are their numeric
codes (R27, R170). -/

namespace Sys2Proof.Machine

/-- The code of STATUS (R27). -/
def Status.code : Status → Nat
  | .idle => 0
  | .running => 1
  | .halted => 2
  | .faulted => 3

/-- The code of FAULT_CAUSE (R27, R170). -/
def FaultCause.code : FaultCause → Nat
  | .none => 0
  | .outOfRange => 1
  | .malformedProgram => 2
  | .permuteIndex => 3

/-- A run has ended exactly when STATUS is HALTED or FAULTED (R201). -/
def Status.ended : Status → Bool
  | .halted | .faulted => true
  | .idle | .running => false

end Sys2Proof.Machine
end

