-- ==== Sys2Proof/Machine/Lanes.lean ====
section
/-! DEFINITION. The lane views of a block and the packing functions (R9). Values are exact naturals and
integers; only packing narrows them. -/

namespace Sys2Proof.Machine

/-- u8(B, i) (R9). -/
def u8 (b : Block) (i : Nat) : Nat := (b.getD i 0).toNat

/-- u16(B, k) (R9); LANE_ORDER says which byte is the least significant (R47, D3). -/
def u16 (o : LaneOrder) (b : Block) (k : Nat) : Nat :=
  match o with
  | .little => u8 b (2 * k) + 256 * u8 b (2 * k + 1)
  | .big => u8 b (2 * k + 1) + 256 * u8 b (2 * k)

/-- u32(B, k) (R9). -/
def u32 (o : LaneOrder) (b : Block) (k : Nat) : Nat :=
  match o with
  | .little => u8 b (4 * k) + 256 * u8 b (4 * k + 1) + 65536 * u8 b (4 * k + 2) + 16777216 * u8 b (4 * k + 3)
  | .big => u8 b (4 * k + 3) + 256 * u8 b (4 * k + 2) + 65536 * u8 b (4 * k + 1) + 16777216 * u8 b (4 * k)

/-- sgn_w(v): the two's-complement reading of a `w`-bit value (R9). -/
def sgn (w v : Nat) : Int := if v < 2 ^ (w - 1) then (v : Int) else (v : Int) - ((2 ^ w : Nat) : Int)

/-- s8(B, i) (R9). -/
def s8 (b : Block) (i : Nat) : Int := sgn 8 (u8 b i)

/-- s16(B, k) (R9). -/
def s16 (o : LaneOrder) (b : Block) (k : Nat) : Int := sgn 16 (u16 o b k)

/-- Where the byte of significance `j` of a `w`-byte lane stands in the lane, and the other way round. -/
def LaneOrder.place (o : LaneOrder) (w j : Nat) : Nat :=
  match o with
  | .little => j
  | .big => w - 1 - j

/-- The byte of significance `j` of an integer reduced modulo 2^(8w): (v mod 2^(8w))[8j+7 : 8j] (R9). -/
def laneByte (w : Nat) (v : Int) (j : Nat) : Byte :=
  BitVec.ofNat 8 ((v % ((2 ^ (8 * w) : Nat) : Int)).toNat / 2 ^ (8 * j))

/-- Packs the lanes `f 0, f 1, …` of `w` bytes into 32 bytes (R9). -/
def packLanes (o : LaneOrder) (w : Nat) (f : Nat → Int) : Block :=
  (List.range 32).map fun p => laneByte w (f (p / w)) (LaneOrder.place o w (p % w))

/-- pack8(f): byte i is f(i) mod 256 (R9). -/
def pack8 (f : Nat → Int) : Block := packLanes .little 1 f

/-- pack16(f) (R9). -/
def pack16 (o : LaneOrder) (f : Nat → Int) : Block := packLanes o 2 f

/-- pack32(f) (R9). -/
def pack32 (o : LaneOrder) (f : Nat → Int) : Block := packLanes o 4 f

end Sys2Proof.Machine
end

