-- ==== Sys2Proof/Machine/Ops.lean ====
section
/-! DEFINITION. The named operations over memory and the run-control registers: byte access, the three
primitives of the memory controller (R40, R44 to R46), taking a fault (R176), halting (R83), and the
start of a run (R195), the one way out of a fault (R178). -/

namespace Sys2Proof.Machine

/-- The byte listed for an address, if one is. -/
def lookupCell : List Host.Cell → Nat → Option Byte
  | [], _ => none
  | (k, b) :: rest, a => if k = a then some b else lookupCell rest a

/-- The cells of consecutive bytes from address `a` on; a loaded memory lists no 0. -/
def listCells (loaded : Bool) (a : Nat) : List Byte → List Host.Cell
  | [] => []
  | b :: bs => if loaded && b == 0 then listCells loaded (a + 1) bs else (a, b) :: listCells loaded (a + 1) bs

/-- WHAT AN UNLISTED ADDRESS READS AS: 0 in a loaded image, else the free value (R33, log 1, log 2). -/
def Memory.unlisted (m : Memory) (a : Nat) : Byte := if m.loaded then 0 else Config.unloadedByte a

/-- MEM[a] (R10, R21): always a definite byte. -/
def Memory.read (m : Memory) (a : Nat) : Byte := (lookupCell m.cells a).getD (m.unlisted a)

/-- The `n` bytes at offsets `a` to `a + n - 1`. -/
def Memory.bytes (m : Memory) (a n : Nat) : List Byte := (List.range n).map fun j => m.read (a + j)

/-- MEM[a + j] <- bs[j] for every byte of `bs` (R46): the cells below, those of the bytes, the cells above. -/
def Memory.writeBytes (m : Memory) (a : Nat) (bs : List Byte) : Memory :=
  { m with cells := m.cells.filter (fun x => x.1 < a) ++ listCells m.loaded a bs ++
      m.cells.filter (fun x => a + bs.length ≤ x.1) }

/-- Addresses strictly rise. -/
def risingCells : List Host.Cell → Bool
  | [] => true
  | [_] => true
  | (a, _) :: (k, x) :: rest => a < k && risingCells ((k, x) :: rest)

/-- The canonical form: addresses strictly rising and inside MEM, and no entry of a loaded memory equal to
the 0 an unlisted address reads as (log 2). -/
def Memory.wf (m : Memory) (c : Config := config) : Bool :=
  risingCells m.cells && m.cells.all fun x => x.1 < c.memSize && !(m.loaded && x.2 == 0)

/-- The memory a host loaded with an image, byte for byte (R194). -/
def Memory.ofImage (image : List Byte) : Memory := { loaded := true, cells := listCells true 0 image }

/-- `raise OutOfRange(a)` unless the `n` bytes at `a` lie inside MEM (R43). -/
def checkRange (c : Config) (a n : Nat) : Except FaultReport Unit :=
  if c.inRange a n then .ok () else .error { cause := .outOfRange, info := a }

/-- ReadRaw(a, n) (R44). -/
def Memory.readRaw (c : Config) (m : Memory) (a n : Nat) : Except FaultReport (List Byte) := do
  checkRange c a n
  return m.bytes a n

/-- ReadBlock(i) (R45): a copy of the block's 32 bytes. -/
def Memory.readBlock (c : Config) (m : Memory) (i : Byte) : Except FaultReport Block := do
  checkRange c (c.blockOffset i) 32
  return m.bytes (c.blockOffset i) 32

/-- WriteBlock(i, B) (R46): all or nothing; data longer than 32 bytes is cut (log 15). -/
def Memory.writeBlock (c : Config) (m : Memory) (i : Byte) (data : Block) : Except FaultReport Memory := do
  checkRange c (c.blockOffset i) 32
  return m.writeBytes (c.blockOffset i) (data.take 32)

/-- TAKING A FAULT (R176): MEM and ip stay as they were before the instruction, and ip is its pc0. -/
def State.takeFault (s : State) (r : FaultReport) : State :=
  { s with status := .faulted, faultCause := r.cause, faultPc := s.ip, faultInfo := r.info }

/-- The start of a run (R33 column "after HostRun starts", R195). There is no return from a fault (R178):
this, or loading an image, is how FAULTED is left. -/
def State.startRun (s : State) : State :=
  { s with ip := 0, status := .running, faultCause := .none, faultPc := 0, faultInfo := 0 }

/-- The normal end of a run (R83): ip stays at the sentinel, MEM is unchanged. -/
def State.halt (s : State) : State := { s with status := .halted }

/-- The end of an instruction of handler `h`, run in a state whose ip is pc0 (R82, R85): the memory the
handler leaves and ip past the instruction, or the fault it raised. -/
def State.finish (c : Config) (s : State) (h : Handler) (r : Except FaultReport Memory) : Result :=
  match r with
  | .ok m => .next { s with mem := m, ip := s.ip + c.lengthOf h }
  | .error f => .next (s.takeFault f)

end Sys2Proof.Machine
end

