-- ==== Sys2Proof/Machine/Fetch.lean ====
section
/-! DEFINITION. The sequencer (40_sequencer.md): fetching and decoding at ip, one whole instruction with a
given dispatch, and the meaning of the halt sentinel. -/

namespace Sys2Proof.Machine

/-- The bytes of MEM from ip on, as many as the longest instruction can take and MEM has. -/
def State.stream (s : State) (c : Config := config) : List Byte :=
  s.mem.bytes s.ip (min maxInstrBytes (c.memSize - s.ip))

/-- Fetching and Decoding (R81, R82, R140), with the first check of R175 that fails: OutOfRange with the
offset where the failing fetch starts (R171), or MalformedProgram with the opcode byte (R172). -/
def State.fetch (s : State) (c : Config := config) : Except FaultReport Instr :=
  match decode (s.stream c) c with
  | .ok i _ => .ok i
  | .illegal op => .error { cause := .malformedProgram, info := op.toNat }
  | .truncated start => .error { cause := .outOfRange, info := s.ip + start }

/-- Step (R85) with a dispatch: one whole instruction, defined only when STATUS is RUNNING. -/
def stepWith (dispatch : Instr → State → Result) (s : State) (c : Config := config) : Result :=
  if s.status = .running then
    match s.fetch c with
    | .ok i => dispatch i s
    | .error r => .next (s.takeFault r)
  else .fault (.notRunning s.status)

/-- HALT, the sentinel 0xFF where an opcode is expected (R68, R83). -/
def execHalt (s : State) : Result := .next s.halt

/-- A memory counted as loaded: its listed bytes, and 0 where it lists nothing. -/
def Memory.asLoaded (m : Memory) : Memory :=
  if m.loaded then m else { loaded := true, cells := m.cells.filter fun x => x.2 != 0 }

/-- Stores bytes at ascending offsets, those that lie inside MEM. -/
def Memory.place (m : Memory) (c : Config) (a : Nat) (bs : List Byte) : Memory :=
  m.writeBytes a (bs.take (c.memSize - a))

/-- A state in which a run is going on: `s` itself while RUNNING, else the start of a run (R195). -/
def State.inRun (s : State) : State := if s.status = .running then s else s.startRun

/-- The load that `State.withFetchWord` stands for (log 4). -/
def State.loadAtFetch (s : State) (bs : List Byte) : State :=
  { s.inRun with mem := s.mem.asLoaded.place config s.inRun.ip bs }

end Sys2Proof.Machine
end

