-- ==== Sys2Proof/Machine/Operands.lean ====
section
/-! DEFINITION. The operand forms (R63): two source blocks (R100, R120, R130, R131), a source block and a
count (R110), an immediate (R140), and operands an inert handler ignores (R150). Each form is the shared
shape of the instructions that have it. Reads come before the one write (R57). -/

namespace Sys2Proof.Machine

/-- Of the values of o2 and o3, the one in the named role and the other one. -/
def SourceOperand.split {α : Type} (r : SourceOperand) (x2 x3 : α) : α × α :=
  match r with
  | .o2 => (x2, x3)
  | .o3 => (x3, x2)

/-- Two source blocks to one (R100, R120, R130, R131): read o2, read o3, compute, write o1. `f` takes the
blocks in stream order and may raise a fault of its own (R130). -/
def twoBlocks (c : Config) (h : Handler) (f : Block → Block → Except FaultReport Block)
    (o1 o2 o3 : Byte) (s : State) : Result :=
  s.finish c h do
    let x2 ← s.mem.readBlock c o2
    let x3 ← s.mem.readBlock c o3
    let r ← f x2 x3
    s.mem.writeBlock c o1 r

/-- A source block and a scalar count to one block (R110): the count is an operand byte used as it stands,
never a block index. -/
def blockAndCount (c : Config) (h : Handler) (f : Block → Nat → Block)
    (o1 o2 o3 : Byte) (s : State) : Result :=
  let (count, src) := SourceOperand.split c.shiftCountOperand o2 o3
  s.finish c h do
    let a ← s.mem.readBlock c src
    s.mem.writeBlock c o1 (f a count.toNat)

/-- An immediate to a block (R140). -/
def immediate (c : Config) (h : Handler) (o1 : Byte) (imm : Block) (s : State) : Result :=
  s.finish c h (s.mem.writeBlock c o1 imm)

/-- An inert handler (R150): no ReadBlock, no WriteBlock; ip steps over the instruction. -/
def inertStep (c : Config) (h : Handler) (s : State) : Result := s.finish c h (.ok s.mem)

end Sys2Proof.Machine
end

