-- ==== Sys2Proof/Machine/Inert.lean ====
section
/-! DEFINITION. The eleven inert handlers (46_inert.md): each is R150 and nothing else, whatever its operand
bytes name. -/

namespace Sys2Proof.Machine

/-- NOP (R150, R151). -/
def execNop (s : State) (c : Config := config) : Result := inertStep c .nop s

/-- VADDW (R150, R152). -/
def execVaddw (_o1 _o2 _o3 : Byte) (s : State) (c : Config := config) : Result := inertStep c .vaddw s

/-- VADDQ (R150, R153). -/
def execVaddq (_o1 _o2 _o3 : Byte) (s : State) (c : Config := config) : Result := inertStep c .vaddq s

/-- VSUBB (R150, R154). -/
def execVsubb (_o1 _o2 _o3 : Byte) (s : State) (c : Config := config) : Result := inertStep c .vsubb s

/-- VSUBW (R150, R155). -/
def execVsubw (_o1 _o2 _o3 : Byte) (s : State) (c : Config := config) : Result := inertStep c .vsubw s

/-- VSUBD (R150, R156). -/
def execVsubd (_o1 _o2 _o3 : Byte) (s : State) (c : Config := config) : Result := inertStep c .vsubd s

/-- VSUBQ (R150, R157). -/
def execVsubq (_o1 _o2 _o3 : Byte) (s : State) (c : Config := config) : Result := inertStep c .vsubq s

/-- VMULLM (R150, R158). -/
def execVmullm (_o1 _o2 _o3 : Byte) (s : State) (c : Config := config) : Result := inertStep c .vmullm s

/-- VMOV (R150, R159). -/
def execVmov (_o1 _o2 : Byte) (s : State) (c : Config := config) : Result := inertStep c .vmov s

/-- VXORC (R150, R160). -/
def execVxorc (_o1 _o2 _o3 : Byte) (s : State) (c : Config := config) : Result := inertStep c .vxorc s

/-- VADDWU (R150, R161). -/
def execVaddwu (_o1 _o2 _o3 : Byte) (s : State) (c : Config := config) : Result := inertStep c .vaddwu s

end Sys2Proof.Machine
end

