-- ==== Sys2Proof/Machine/Lanewise.lean ====
section
/-! DEFINITION. Lane-wise add, logic and compare (41_lanewise.md). `b` is the block of o2, `a` that of o3. -/

namespace Sys2Proof.Machine

/-- R101: each lane mod 2^8. -/
def addBytes (b a : Block) : Block := pack8 fun i => u8 a i + u8 b i

/-- R102: each lane mod 2^32. -/
def addDwords (o : LaneOrder) (b a : Block) : Block := pack32 o fun k => u32 o a k + u32 o b k

/-- R103. -/
def andBytes (b a : Block) : Block := pack8 fun i => (u8 a i &&& u8 b i : Nat)

/-- R104. -/
def orBytes (b a : Block) : Block := pack8 fun i => (u8 a i ||| u8 b i : Nat)

/-- R105. -/
def xorBytes (b a : Block) : Block := pack8 fun i => (u8 a i ^^^ u8 b i : Nat)

/-- R106: 1 where the lanes are equal, else 0, never 0xFF. -/
def equalBytes (b a : Block) : Block := pack8 fun i => if u8 a i = u8 b i then 1 else 0

/-- VADDB (R100, R101). -/
def execVaddb (o1 o2 o3 : Byte) (s : State) (c : Config := config) : Result :=
  twoBlocks c .vaddb (fun b a => .ok (addBytes b a)) o1 o2 o3 s

/-- VADDD (R100, R102). -/
def execVaddd (o1 o2 o3 : Byte) (s : State) (c : Config := config) : Result :=
  twoBlocks c .vaddd (fun b a => .ok (addDwords c.laneOrder b a)) o1 o2 o3 s

/-- VAND (R100, R103). -/
def execVand (o1 o2 o3 : Byte) (s : State) (c : Config := config) : Result :=
  twoBlocks c .vand (fun b a => .ok (andBytes b a)) o1 o2 o3 s

/-- VOR (R100, R104). -/
def execVor (o1 o2 o3 : Byte) (s : State) (c : Config := config) : Result :=
  twoBlocks c .vor (fun b a => .ok (orBytes b a)) o1 o2 o3 s

/-- VXOR (R100, R105). -/
def execVxor (o1 o2 o3 : Byte) (s : State) (c : Config := config) : Result :=
  twoBlocks c .vxor (fun b a => .ok (xorBytes b a)) o1 o2 o3 s

/-- VCMPEQB (R100, R106): the result goes to a block, there is no flag (R26). -/
def execVcmpeqb (o1 o2 o3 : Byte) (s : State) (c : Config := config) : Result :=
  twoBlocks c .vcmpeqb (fun b a => .ok (equalBytes b a)) o1 o2 o3 s

end Sys2Proof.Machine
end

