-- ==== Sys2Proof/Machine/LiteralLoad.lean ====
section
/-! DEFINITION. Literal load (45_literal_load.md). The immediate is fetched with the instruction, after the
operand byte and before this meaning runs, the order of checks R175 gives (Machine/Fetch.lean, log 12). -/

namespace Sys2Proof.Machine

/-- VLOADI (R140): block byte j <- imm[j], ip = pc0 + 34. -/
def execVloadi (o1 : Byte) (imm : Block) (s : State) (c : Config := config) : Result :=
  immediate c .vloadi o1 imm s

end Sys2Proof.Machine
end

