-- ==== Sys2Proof/Machine/MultiplyAdd.lean ====
section
/-! DEFINITION. Pairwise multiply-add (43_multiply_add.md): signed lanes, exact products and sum, then the
sum reduced modulo the output lane width (R120, log 14). `b` is the block of o2, `a` that of o3. -/

namespace Sys2Proof.Machine

/-- R121: 16 signed words to 8 dwords. -/
def maddWords (o : LaneOrder) (b a : Block) : Block :=
  pack32 o fun k => s16 o a (2 * k) * s16 o b (2 * k) + s16 o a (2 * k + 1) * s16 o b (2 * k + 1)

/-- R122: 32 signed bytes to 16 words. -/
def maddBytes (o : LaneOrder) (b a : Block) : Block :=
  pack16 o fun k => s8 a (2 * k) * s8 b (2 * k) + s8 a (2 * k + 1) * s8 b (2 * k + 1)

/-- VMADDWD (R120, R121). -/
def execVmaddwd (o1 o2 o3 : Byte) (s : State) (c : Config := config) : Result :=
  twoBlocks c .vmaddwd (fun b a => .ok (maddWords c.laneOrder b a)) o1 o2 o3 s

/-- VMADDBW (R120, R122). -/
def execVmaddbw (o1 o2 o3 : Byte) (s : State) (c : Config := config) : Result :=
  twoBlocks c .vmaddbw (fun b a => .ok (maddBytes c.laneOrder b a)) o1 o2 o3 s

end Sys2Proof.Machine
end

