-- ==== Sys2Proof/Machine/Permute.lean ====
section
/-! DEFINITION. Permute and shuffle (44_permute_shuffle.md). -/

namespace Sys2Proof.Machine

/-- The selector value that gives a zero lane (R130). -/
def zeroSelector : Nat := 0xFFFFFFFF

/-- A selector lane that raises PermuteIndex: 8 to 0xFFFFFFFE (R130, R173). -/
def badSelector (s : Nat) : Bool := s != zeroSelector && 7 < s

/-- The value of the lowest-numbered bad selector lane, if there is one (R130, R170, R175). -/
def firstBadSelector (o : LaneOrder) (sel : Block) : Option Nat :=
  ((List.range 8).map (u32 o sel)).find? badSelector

/-- R130 when no selector lane is bad: lane k is the data lane the selector names, or 0. -/
def permuteDwords (o : LaneOrder) (sel data : Block) : Block :=
  pack32 o fun k => if u32 o sel k = zeroSelector then 0 else u32 o data (u32 o sel k)

/-- R130: the selector check, then the lanes. -/
def permuteChecked (o : LaneOrder) (sel data : Block) : Except FaultReport Block :=
  match firstBadSelector o sel with
  | some s => .error { cause := .permuteIndex, info := s }
  | none => .ok (permuteDwords o sel data)

/-- Half(i) of R131. -/
def ShufHalfMode.half (mode : ShufHalfMode) (i : Nat) : Nat :=
  match mode with
  | .low => 0
  | .localHalf => 16 * (i / 16)

/-- R131: byte i is 0 where the mask byte is 0x80 or more, else the data byte its low nibble names. -/
def shuffleBytes (mode : ShufHalfMode) (mask data : Block) : Block :=
  pack8 fun i =>
    if 0x80 ≤ u8 mask i then 0 else u8 data (ShufHalfMode.half mode i + (u8 mask i &&& 0x0F))

/-- VPERMD (R130). -/
def execVpermd (o1 o2 o3 : Byte) (s : State) (c : Config := config) : Result :=
  twoBlocks c .vpermd
    (fun x2 x3 =>
      let (sel, data) := SourceOperand.split c.permSelectorOperand x2 x3
      permuteChecked c.laneOrder sel data)
    o1 o2 o3 s

/-- VSHUFB (R131). -/
def execVshufb (o1 o2 o3 : Byte) (s : State) (c : Config := config) : Result :=
  twoBlocks c .vshufb
    (fun x2 x3 =>
      let (mask, data) := SourceOperand.split c.shufMaskOperand x2 x3
      .ok (shuffleBytes c.shufHalfMode mask data))
    o1 o2 o3 s

end Sys2Proof.Machine
end

