-- ==== Sys2Proof/Machine/Shift.lean ====
section
/-! DEFINITION. Dword shifts (42_shift.md). The count is not reduced modulo 32. -/

namespace Sys2Proof.Machine

/-- R111: (x * 2^c) mod 2^32 in each lane; the packing reduces. -/
def shiftLeftDwords (o : LaneOrder) (a : Block) (count : Nat) : Block :=
  pack32 o fun k => (u32 o a k * 2 ^ count : Nat)

/-- R112: floor(x / 2^c) in each lane, x unsigned. -/
def shiftRightDwords (o : LaneOrder) (a : Block) (count : Nat) : Block :=
  pack32 o fun k => (u32 o a k / 2 ^ count : Nat)

/-- VSLLD (R110, R111). -/
def execVslld (o1 o2 o3 : Byte) (s : State) (c : Config := config) : Result :=
  blockAndCount c .vslld (shiftLeftDwords c.laneOrder) o1 o2 o3 s

/-- VSRLD (R110, R112). -/
def execVsrld (o1 o2 o3 : Byte) (s : State) (c : Config := config) : Result :=
  blockAndCount c .vsrld (shiftRightDwords c.laneOrder) o1 o2 o3 s

end Sys2Proof.Machine
end

