-- ==== Sys2Proof/Machine/Dispatch.lean ====
section
/-! DEFINITION. One arm per constructor of Instr, one meaning per arm (R84). -/

namespace Sys2Proof.Machine

def exec (i : Instr) (s : State) : Host.Outcome State Fault Refusal :=
  match i with
  | .vmaddbw o1 o2 o3 => Sys2Proof.Machine.execVmaddbw o1 o2 o3 s
  | .vmaddwd o1 o2 o3 => Sys2Proof.Machine.execVmaddwd o1 o2 o3 s
  | .vxor o1 o2 o3 => Sys2Proof.Machine.execVxor o1 o2 o3 s
  | .vor o1 o2 o3 => Sys2Proof.Machine.execVor o1 o2 o3 s
  | .vand o1 o2 o3 => Sys2Proof.Machine.execVand o1 o2 o3 s
  | .vxorc o1 o2 o3 => Sys2Proof.Machine.execVxorc o1 o2 o3 s
  | .vaddwu o1 o2 o3 => Sys2Proof.Machine.execVaddwu o1 o2 o3 s
  | .vaddb o1 o2 o3 => Sys2Proof.Machine.execVaddb o1 o2 o3 s
  | .vsubb o1 o2 o3 => Sys2Proof.Machine.execVsubb o1 o2 o3 s
  | .vaddw o1 o2 o3 => Sys2Proof.Machine.execVaddw o1 o2 o3 s
  | .vsubw o1 o2 o3 => Sys2Proof.Machine.execVsubw o1 o2 o3 s
  | .vaddd o1 o2 o3 => Sys2Proof.Machine.execVaddd o1 o2 o3 s
  | .vsubd o1 o2 o3 => Sys2Proof.Machine.execVsubd o1 o2 o3 s
  | .vaddq o1 o2 o3 => Sys2Proof.Machine.execVaddq o1 o2 o3 s
  | .vsubq o1 o2 o3 => Sys2Proof.Machine.execVsubq o1 o2 o3 s
  | .vmullm o1 o2 o3 => Sys2Proof.Machine.execVmullm o1 o2 o3 s
  | .vmov o1 o2 => Sys2Proof.Machine.execVmov o1 o2 s
  | .vloadi o1 imm => Sys2Proof.Machine.execVloadi o1 imm s
  | .vsrld o1 o2 o3 => Sys2Proof.Machine.execVsrld o1 o2 o3 s
  | .vslld o1 o2 o3 => Sys2Proof.Machine.execVslld o1 o2 o3 s
  | .vshufb o1 o2 o3 => Sys2Proof.Machine.execVshufb o1 o2 o3 s
  | .vpermd o1 o2 o3 => Sys2Proof.Machine.execVpermd o1 o2 o3 s
  | .vcmpeqb o1 o2 o3 => Sys2Proof.Machine.execVcmpeqb o1 o2 o3 s
  | .nop => Sys2Proof.Machine.execNop s
  | .halt => Sys2Proof.Machine.execHalt s

end Sys2Proof.Machine
end

