-- ==== Sys2Proof/Machine/Step.lean ====
section
/-! DEFINITION. The step function (R85) at the default configuration, and the host's way to place an
instruction where the next step fetches. -/

namespace Sys2Proof.Machine

/-- One architectural step: one whole instruction (R85). -/
def step : State → Host.Outcome State Fault Refusal := fun s => stepWith exec s

/-- The state with an opcode-table word where `step` fetches next: the host's load of an image that holds
it, zero wherever neither it nor an earlier load gives a byte, and, if no run is going on, the start of a
run (R191, R194, R195; log 4). At an ip so high that the instruction does not fit MEM, the bytes beyond
MEM do not exist. -/
def State.withFetchWord (s : State) (nbits w : Nat) : State := s.loadAtFetch (tableBytes nbits w)

end Sys2Proof.Machine
end

