-- ==== Sys2Proof/Machine/Configured.lean ====
section
/-! DEFINITION. The machine under any configuration (R6): the same meanings, fetch and step with the
parameters as an argument. `exec` and `step` are its instances at the default configuration. -/

namespace Sys2Proof.Machine

/-- The meaning of an instruction under a configuration. -/
def execIn (c : Config) (i : Instr) (s : State) : Result :=
  match i with
  | .vmaddbw o1 o2 o3 => execVmaddbw o1 o2 o3 s c
  | .vmaddwd o1 o2 o3 => execVmaddwd o1 o2 o3 s c
  | .vxor o1 o2 o3 => execVxor o1 o2 o3 s c
  | .vor o1 o2 o3 => execVor o1 o2 o3 s c
  | .vand o1 o2 o3 => execVand o1 o2 o3 s c
  | .vxorc o1 o2 o3 => execVxorc o1 o2 o3 s c
  | .vaddwu o1 o2 o3 => execVaddwu o1 o2 o3 s c
  | .vaddb o1 o2 o3 => execVaddb o1 o2 o3 s c
  | .vsubb o1 o2 o3 => execVsubb o1 o2 o3 s c
  | .vaddw o1 o2 o3 => execVaddw o1 o2 o3 s c
  | .vsubw o1 o2 o3 => execVsubw o1 o2 o3 s c
  | .vaddd o1 o2 o3 => execVaddd o1 o2 o3 s c
  | .vsubd o1 o2 o3 => execVsubd o1 o2 o3 s c
  | .vaddq o1 o2 o3 => execVaddq o1 o2 o3 s c
  | .vsubq o1 o2 o3 => execVsubq o1 o2 o3 s c
  | .vmullm o1 o2 o3 => execVmullm o1 o2 o3 s c
  | .vmov o1 o2 => execVmov o1 o2 s c
  | .vloadi o1 imm => execVloadi o1 imm s c
  | .vsrld o1 o2 o3 => execVsrld o1 o2 o3 s c
  | .vslld o1 o2 o3 => execVslld o1 o2 o3 s c
  | .vshufb o1 o2 o3 => execVshufb o1 o2 o3 s c
  | .vpermd o1 o2 o3 => execVpermd o1 o2 o3 s c
  | .vcmpeqb o1 o2 o3 => execVcmpeqb o1 o2 o3 s c
  | .nop => execNop s c
  | .halt => execHalt s

/-- One step under a configuration (R85). -/
def stepIn (c : Config) (s : State) : Result := stepWith (execIn c) s c

end Sys2Proof.Machine
end

