-- ==== Sys2Proof/Machine/HostOps.lean ====
section
/-! DEFINITION. The host operations (70_reset_and_hazards.md R192 to R200): atomic transactions on the
state, each refused, changing nothing, where R192 does not allow it, and each under any configuration (R6). -/

namespace Sys2Proof.Machine

/-- Why a host operation fails; the state is then unchanged (R192). -/
inductive HostError where
  /-- the transaction is not allowed in this STATUS (R192) -/
  | notAllowed (status : Status)
  /-- HostLoad was given an image that is not MEM_SIZE bytes long (R194, log 10) -/
  | wrongImageSize (length : Nat)
  /-- HostSetInput was given more than INPUT_LEN bytes (R174, R196) -/
  | inputTooLong (length : Nat)
  /-- bytes or a block that do not lie inside MEM were asked for (R197, R198, R199; log 11) -/
  | outOfRange (start : Nat)
  deriving DecidableEq, Repr

/-- The states in which the host may touch MEM: every one but RUNNING (R32, R192). -/
def whenIdle {α : Type} (s : State) (x : Except HostError α) : Except HostError α :=
  if s.status = .running then .error (.notAllowed s.status) else x

/-- The transactions that are meaningful only after a halt (R181, R192). -/
def whenHalted {α : Type} (s : State) (x : Except HostError α) : Except HostError α :=
  if s.status = .halted then x else .error (.notAllowed s.status)

/-- HostReset (R193), allowed always. In a run MEM keeps what the completed instructions wrote; outside one
it is unspecified again (R33; log 9). -/
def hostReset (s : State) : State :=
  { State.reset with mem := if s.status = .running then s.mem else State.reset.mem }

/-- HostLoad(image) (R194). -/
def hostLoad (image : List Byte) (s : State) (c : Config := config) : Except HostError State :=
  whenIdle s
    (if image.length = c.memSize then .ok { State.reset with mem := Memory.ofImage image }
     else .error (.wrongImageSize image.length))

/-- The INPUT_LEN bytes HostSetInput writes: the data, zero-padded (R196). -/
def inputBytes (c : Config) (data : List Byte) : List Byte :=
  (List.range c.inputLen).map fun j => data.getD j 0

/-- HostSetInput(data) (R196): too long is refused and writes nothing (R174). -/
def hostSetInput (data : List Byte) (s : State) (c : Config := config) : Except HostError State :=
  whenIdle s
    (if c.inputLen < data.length then .error (.inputTooLong data.length)
     else .ok { s with mem := s.mem.writeBytes c.inputOff (inputBytes c data) })

/-- At most `n` applications of a step, ending with STATUS (R86, R195). -/
def runWith (stepOnce : State → Result) : Nat → State → State
  | 0, s => s
  | n + 1, s =>
    if s.status = .running then
      match stepOnce s with
      | .next t => runWith stepOnce n t
      | .fault _ => s
      | .refused _ => s
    else s

/-- HostRun (R195): from the start of a run to HALTED or FAULTED. MEM_SIZE + 1 steps are enough (R87; log
8). -/
def hostRun (s : State) (c : Config := config) : Except HostError State :=
  whenIdle s (.ok (runWith (stepIn c) (c.memSize + 1) s.startRun))

/-- HostReadMem(a, n) (R197). -/
def hostReadMem (a n : Nat) (s : State) (c : Config := config) : Except HostError (List Byte) :=
  whenIdle s (if c.inRange a n then .ok (s.mem.bytes a n) else .error (.outOfRange a))

/-- ReadBlock for the host: the block, or the offset that does not fit (log 11). -/
def hostBlock (c : Config) (s : State) (i : Byte) : Except HostError Block :=
  match s.mem.readBlock c i with
  | .ok b => .ok b
  | .error r => .error (.outOfRange r.info)

/-- HostVerify (R198); VERIFY_A, VERIFY_B and VERIFY_LEN are its arguments (D18, log 11). R198 bounds
VERIFY_LEN by 1 and 32 and gives no result outside. DESIGN CHOICE (log 11, unsafe): 0 compares no byte and
answers true, and a length above 32 compares the whole blocks. -/
def hostVerify (verifyA verifyB : Byte) (verifyLen : Nat) (s : State) (c : Config := config) :
    Except HostError Bool :=
  whenHalted s do
    let a ← hostBlock c s verifyA
    let b ← hostBlock c s verifyB
    return a.take verifyLen == b.take verifyLen

/-- HostResult (R199): 32 character codes, RESULT_A xor RESULT_B byte for byte. -/
def hostResult (s : State) (c : Config := config) : Except HostError (List Byte) :=
  whenHalted s do
    let a ← hostBlock c s c.resultA
    let b ← hostBlock c s c.resultB
    return xorBytes b a

/-- HostStatus (R200), allowed always: STATUS, FAULT_CAUSE, FAULT_PC, FAULT_INFO. -/
def hostStatus (s : State) : Status × FaultCause × Nat × Nat :=
  (s.status, s.faultCause, s.faultPc, s.faultInfo)

end Sys2Proof.Machine
end

