-- ==== Sys2Proof/Safety.lean ====
section
/-! DEFINITION. What a good state and a good end of a run are, and the words statements are made of:
vector registers and their lanes, the frame of an instruction, and a taken fault, each written from the
spec and not from the meanings. -/

namespace Sys2Proof.Machine

/-- The bounds of R20 and R27: MEM in canonical form, ip and FAULT_PC between 0 and MEM_SIZE, and the fault
registers clear unless STATUS is FAULTED, when FAULT_PC is ip (R176). -/
def State.Inv (s : State) : Prop :=
  s.mem.wf = true ∧ s.ip ≤ config.memSize ∧
  (if s.status = .faulted then s.faultCause ≠ .none ∧ s.faultPc = s.ip
   else s.faultCause = .none ∧ s.faultPc = 0 ∧ s.faultInfo = 0)

/-- Two states a program or a host cannot tell apart: the same registers, and the same byte at every
offset of MEM, however the two memories are held. -/
def State.Same (s t : State) : Prop :=
  (∀ a, a < config.memSize → s.mem.read a = t.mem.read a) ∧ s.ip = t.ip ∧ s.status = t.status ∧
  s.faultCause = t.faultCause ∧ s.faultPc = t.faultPc ∧ s.faultInfo = t.faultInfo

/-- Byte `j` of vector register `v<i>`: MEM[RAM_BASE + 32*i + j] (R23). -/
def State.reg (s : State) (i : Byte) (j : Nat) : Byte := s.mem.read (config.blockOffset i + j)

/-- 16-bit lane `k` of a vector register, the byte at the lower offset the less significant (R9, R47). -/
def State.word (s : State) (i : Byte) (k : Nat) : BitVec 16 := s.reg i (2 * k + 1) ++ s.reg i (2 * k)

/-- 32-bit lane `k` of a vector register (R9, R47). -/
def State.dword (s : State) (i : Byte) (k : Nat) : BitVec 32 :=
  s.reg i (4 * k + 3) ++ s.reg i (4 * k + 2) ++ s.reg i (4 * k + 1) ++ s.reg i (4 * k)

/-- The state after a fault: MEM and ip as before, the four registers written (R176). -/
def State.faulted (s : State) (cause : FaultCause) (info : Nat) : State :=
  { s with status := .faulted, faultCause := cause, faultPc := s.ip, faultInfo := info }

/-- The forms that store nothing: the halt sentinel (R83) and the inert handlers (R150). -/
def storesNothing (i : Instr) : Bool :=
  match i.handler with
  | none => true
  | some h => h.inert

/-- The fault registers and STATUS are as before. -/
def SameControl (s t : State) : Prop :=
  t.status = s.status ∧ t.faultCause = s.faultCause ∧ t.faultPc = s.faultPc ∧ t.faultInfo = s.faultInfo

/-- The frame of an instruction of `len` bytes that writes block `o1` (R25, R26): ip steps over the
instruction, no other register changes, every byte of MEM outside the block reads as before. -/
def WritesOnlyBlock (s t : State) (o1 : Byte) (len : Nat) : Prop :=
  t.ip = s.ip + len ∧ SameControl s t ∧
  ∀ a, (a < config.blockOffset o1 ∨ config.blockOffset o1 + 32 ≤ a) → t.mem.read a = s.mem.read a

/-- The instruction answers a next state that obeys its frame and holds its result. -/
def Completes (i : Instr) (s : State) (o1 : Byte) (len : Nat) (result : State → Prop) : Prop :=
  ∃ t, exec i s = .next t ∧ WritesOnlyBlock s t o1 len ∧ result t

/-- The read of o2 and then the read of o3 fault when their blocks lie outside MEM (R171, R175). -/
def SourceReadsFault (i : Instr) (s : State) (o2 o3 : Byte) : Prop :=
  (config.blockFits o2 = false →
    exec i s = .next (s.faulted .outOfRange (config.blockOffset o2))) ∧
  (config.blockFits o2 = true → config.blockFits o3 = false →
    exec i s = .next (s.faulted .outOfRange (config.blockOffset o3)))

/-- The exceptions of R100: the reads of o2 and o3, then the write of o1. -/
def TwoBlockFaults (i : Instr) (s : State) (o1 o2 o3 : Byte) : Prop :=
  SourceReadsFault i s o2 o3 ∧
  (config.blockFits o2 = true → config.blockFits o3 = true → config.blockFits o1 = false →
    exec i s = .next (s.faulted .outOfRange (config.blockOffset o1)))

/-- The exceptions of R111 and R112: the read of o2, then the write of o1; the count raises nothing. -/
def ShiftFaults (i : Instr) (s : State) (o1 o2 : Byte) : Prop :=
  (config.blockFits o2 = false →
    exec i s = .next (s.faulted .outOfRange (config.blockOffset o2))) ∧
  (config.blockFits o2 = true → config.blockFits o1 = false →
    exec i s = .next (s.faulted .outOfRange (config.blockOffset o1)))

/-- The bytes of an instruction stand in MEM from ip on. -/
def State.HoldsAtIp (s : State) (bytes : List Byte) : Prop :=
  s.ip + bytes.length ≤ config.memSize ∧ ∀ k, k < bytes.length → s.mem.read (s.ip + k) = bytes.getD k 0

/-- The byte a fetch at ip reads. -/
def State.opcodeByte (s : State) : Byte := s.mem.read s.ip

/-- The length of the instruction an opcode byte 0x00 to 0x17 begins, by the default table (R71). -/
def lengthByOpcode (op : Byte) : Nat :=
  if op = 0x17 then 1 else if op = 0x10 then 3 else if op = 0x11 then 34 else 4

/-- A VPERMD selector lane that raises nothing: the sentinel 0xFFFFFFFF, or 0 to 7 (R130). -/
def goodSelector (x : BitVec 32) : Prop := x = 0xFFFFFFFF ∨ x.toNat ≤ 7

end Sys2Proof.Machine
end

