-- ==== Sys2Proof/Certificates/Slice0/Obligations.lean ====
section
/-! DEFINITION. The statements for the provers. -/

open Sys2Proof Sys2Proof.Machine

/-! Encoding. -/

/-- R66, R68, R69: one word of each format, from the encodings R101, R159, R140, R151 and R68 print, and an
illegal byte. -/
def Obligations.PrintedEncodingsDecode : Prop :=
  decode [0x07, 0x02, 0x00, 0x01] = .ok (.vaddb 2 0 1) [] ∧
  decode [0x15, 0x04, 0x03, 0x02, 0xFF] = .ok (.vpermd 4 3 2) [0xFF] ∧
  decode [0x12, 0x06, 0x04, 0x04] = .ok (.vsrld 6 4 4) [] ∧
  decode [0x10, 0x09, 0x00] = .ok (.vmov 9 0) [] ∧
  decode ([0x11, 0x1F] ++ List.replicate 32 0xFF) = .ok (.vloadi 0x1F (List.replicate 32 0xFF)) [] ∧
  decode [0x17] = .ok .nop [] ∧
  decode [0xFF] = .ok .halt [] ∧
  decode [0x18, 0x00, 0x00, 0x00] = .illegal 0x18

/-- R69: the bytes 24 to 254 in the opcode position are no instruction, whatever follows. -/
def Obligations.IllegalOpcodesAreRefused : Prop :=
  ∀ (op : Byte) (rest : List Byte), 24 ≤ op.toNat → op.toNat ≤ 254 → decode (op :: rest) = .illegal op

/-- R71: "With the default table the lengths are 1 (NOP), 3 (VMOV), 34 (VLOADI) and 4 (the rest)", and the
halt sentinel is one byte (R68). -/
def Obligations.InstructionLengths : Prop :=
  ∀ i : Instr, i.wf = true →
    (encode i).length = if i = .halt then 1 else lengthByOpcode ((encode i).getD 0 0)

/-- Decoding the encoding of a well-formed instruction gives it back, with every operand at every value,
whatever stands behind it, under every configuration whose opcode table is one (R6, R31, R60, R61). -/
def Obligations.DecodeEncodeRoundTrip : Prop :=
  ∀ (c : Config), c.wf = true → ∀ (i : Instr), i.wf c = true →
    ∀ rest : List Byte, decode (encode i c ++ rest) c = .ok i rest

/-- The other direction, for the default table: a byte stream the decoder accepts IS the encoding of a
well-formed instruction and what follows it; the stream has one parse (R71). -/
def Obligations.EncodeDecodeRoundTrip : Prop :=
  ∀ (bytes rest : List Byte) (i : Instr), decode bytes = .ok i rest → i.wf = true ∧ bytes = encode i ++ rest

/-- R9: viewing a packed lane gives the value reduced modulo 2^w, in both byte orders. -/
def Obligations.PackingInvertsTheViews : Prop :=
  ∀ (o : LaneOrder) (f : Nat → Int),
    (∀ i, i < 32 → (u8 (pack8 f) i : Int) = f i % 256) ∧
    (∀ k, k < 16 → (u16 o (pack16 o f) k : Int) = f k % 65536) ∧
    (∀ k, k < 8 → (u32 o (pack32 o f) k : Int) = f k % 4294967296)

/-- R6 and R7: the default of every parameter the configuration has, OPMAP with the 24 rows of R66 and R67 in
the order of their opcode bytes, the constants R6 fixes, and that the defaults pass the configuration check.
That they are what `exec` and `step` run is the model's choice (log 3). -/
def Obligations.DefaultParameters : Prop :=
  config.wf = true ∧ config.ramBase = 0x800 ∧ config.inputOff = 0x25 ∧ config.inputLen = 0x20 ∧
  config.memSize = 0xC00 ∧ config.laneOrder = .little ∧ config.shufHalfMode = .low ∧
  config.permSelectorOperand = .o2 ∧ config.shufMaskOperand = .o3 ∧ config.shiftCountOperand = .o3 ∧
  config.resultA = 1 ∧ config.resultB = 0x1F ∧
  haltByte = 0xFF ∧ maxOperands = 3 ∧ Handler.vloadi.immBytes = 32 ∧
  config.opmap.map (fun r => (r.handler, r.count)) =
    [(.vmaddbw, 3), (.vmaddwd, 3), (.vxor, 3), (.vor, 3), (.vand, 3), (.vxorc, 3), (.vaddwu, 3), (.vaddb, 3)] ++
    [(.vsubb, 3), (.vaddw, 3), (.vsubw, 3), (.vaddd, 3), (.vsubd, 3), (.vaddq, 3), (.vsubq, 3), (.vmullm, 3)] ++
    [(.vmov, 2), (.vloadi, 1), (.vsrld, 3), (.vslld, 3), (.vshufb, 3), (.vpermd, 3), (.vcmpeqb, 3), (.nop, 0)]

/-- `exec` and `step` are the machine of every configuration at the default one (R6; log 3). -/
def Obligations.ExecIsTheDefaultConfiguration : Prop :=
  (∀ (i : Instr) (s : State), exec i s = execIn config i s) ∧ ∀ s : State, step s = stepIn config s

/-! Memory. -/

/-- R43 for the three primitives (R44, R45, R46): in range exactly when a + n <= MEM_SIZE, else
OutOfRange(a) and nothing else. -/
def Obligations.AccessesOutsideMemoryRaiseOutOfRange : Prop :=
  ∀ (m : Memory) (a n : Nat) (i : Byte) (data : Block),
    m.readRaw config a n =
      (if a + n ≤ config.memSize then .ok (m.bytes a n) else .error { cause := .outOfRange, info := a }) ∧
    ((∃ b, m.readBlock config i = .ok b) ↔ config.ramBase + 32 * i.toNat + 32 ≤ config.memSize) ∧
    ((∃ m', m.writeBlock config i data = .ok m') ↔ config.ramBase + 32 * i.toNat + 32 ≤ config.memSize) ∧
    (¬ config.ramBase + 32 * i.toNat + 32 ≤ config.memSize →
      m.readBlock config i = .error { cause := .outOfRange, info := config.ramBase + 32 * i.toNat } ∧
      m.writeBlock config i data = .error { cause := .outOfRange, info := config.ramBase + 32 * i.toNat })

/-- R58: writeBlock then readBlock returns the first 32 bytes written; every other block, and every byte
below RAM_BASE, is unchanged. -/
def Obligations.BlockWriteThenReadRoundTrip : Prop :=
  ∀ (m : Memory) (i : Byte) (data : Block), config.blockFits i = true → 32 ≤ data.length →
    ∃ m', m.writeBlock config i data = .ok m' ∧
      m'.readBlock config i = .ok (data.take 32) ∧
      (∀ j : Byte, j ≠ i → m'.readBlock config j = m.readBlock config j) ∧
      ∀ a, a < config.ramBase → m'.read a = m.read a

/-- R55: the bytes a WriteBlock wrote are what a later fetch of them reads. -/
def Obligations.FetchSeesBlockWrites : Prop :=
  ∀ (s : State) (m' : Memory) (i : Byte) (data : Block) (j : Nat), data.length = 32 → j < 32 →
    s.mem.writeBlock config i data = .ok m' →
    ({ s with mem := m', ip := config.blockOffset i + j } : State).stream.head? = some (data.getD j 0)

/-! The sequencer. -/

/-- When the bytes at ip are the encoding of a well-formed instruction, a step is that instruction's
meaning at that state (R80 to R85). -/
def Obligations.StepRunsTheDecodedInstruction : Prop :=
  ∀ (s : State) (i : Instr), s.status = .running → i.wf = true → s.HoldsAtIp (encode i) → step s = exec i s

/-- R85: while RUNNING a step is total. -/
def Obligations.StepIsTotalWhileRunning : Prop :=
  ∀ s : State, s.status = .running → ∃ t, step s = .next t

/-- The model's stuck state where the spec defines no step (R85, R178; log 6). -/
def Obligations.StepStopsUnlessRunning : Prop :=
  ∀ s : State, s.status ≠ .running → step s = .fault (.notRunning s.status)

/-- R68, R83: the sentinel 0xFF where an opcode is expected ends the run; ip and MEM are unchanged, and no
further step is made. -/
def Obligations.HaltSentinelEndsTheRun : Prop :=
  encode .halt = [0xFF] ∧
  (∀ s : State, exec .halt s = .next { s with status := .halted }) ∧
  (∀ s t : State, s.status = .halted → step s ≠ .next t) ∧
  ∀ s : State, s.status = .running → s.ip < config.memSize → s.opcodeByte = 0xFF →
    step s = .next { s with status := .halted }

/-- R201: a step ends well only by fetching the sentinel. -/
def Obligations.HaltedOnlyAtTheSentinel : Prop :=
  ∀ s t : State, step s = .next t → t.status = .halted →
    s.ip < config.memSize ∧ s.opcodeByte = 0xFF ∧ t = { s with status := .halted }

/-- R81, R82, R175 items 1 and 4: the opcode fetch and the operand fetch fault outside MEM. -/
def Obligations.FetchesOutsideMemoryFault : Prop :=
  ∀ s : State, s.status = .running →
    (config.memSize ≤ s.ip → step s = .next (s.faulted .outOfRange s.ip)) ∧
    ∀ row, s.ip < config.memSize → config.rowOf s.opcodeByte = some row →
      config.memSize < s.ip + 1 + row.count → step s = .next (s.faulted .outOfRange (s.ip + 1))

/-- R172: MalformedProgram is raised exactly when the opcode byte is 24 to 254, with the byte as
information. -/
def Obligations.MalformedProgramExactlyOnIllegalOpcodes : Prop :=
  ∀ s : State, s.status = .running →
    ((∃ t, step s = .next t ∧ t.status = .faulted ∧ t.faultCause = .malformedProgram) ↔
      s.ip < config.memSize ∧ 24 ≤ s.opcodeByte.toNat ∧ s.opcodeByte.toNat ≤ 254) ∧
    (s.ip < config.memSize → 24 ≤ s.opcodeByte.toNat → s.opcodeByte.toNat ≤ 254 →
      step s = .next (s.faulted .malformedProgram s.opcodeByte.toNat))

/-- R25: the table of what ip holds after an instruction, a halt and a fault. -/
def Obligations.IpAfterAnInstruction : Prop :=
  ∀ s t : State, step s = .next t →
    (t.status = .running ∧ t.ip = s.ip + lengthByOpcode s.opcodeByte ∧ s.opcodeByte.toNat < 24) ∨
    ((t.status = .halted ∨ t.status = .faulted) ∧ t.ip = s.ip)

/-! Faults. -/

/-- R176, R177: a step that ends in FAULTED changed nothing but the four run-control registers, whatever the
instruction, and no further step is made. -/
def Obligations.FaultsArePrecise : Prop :=
  ∀ s t : State, step s = .next t → t.status = .faulted →
    (∃ cause info, cause ≠ .none ∧ t = s.faulted cause info) ∧ ∀ u, step t ≠ .next u

/-- R173: PermuteIndex comes from VPERMD only, with a selector value 8 to 0xFFFFFFFE as information. -/
def Obligations.PermuteIndexOnlyFromVpermd : Prop :=
  ∀ s t : State, step s = .next t → t.status = .faulted → t.faultCause = .permuteIndex →
    s.opcodeByte = 0x15 ∧ 8 ≤ t.faultInfo ∧ t.faultInfo ≤ 0xFFFFFFFE

/-- R178: no step leaves FAULTED. -/
def Obligations.FaultedIsAbsorbing : Prop :=
  ∀ s t : State, s.status = .faulted → step s ≠ .next t

/-! The vector ALU. Each statement has the encoding, the faults in the order R175 gives, and the result with
the frame; the operands may name one block two or three times (R57). -/

/-- R101. -/
def Obligations.VaddbAddsBytes : Prop :=
  ∀ (o1 o2 o3 : Byte) (s : State),
    encode (.vaddb o1 o2 o3) = [0x07, o1, o2, o3] ∧
    TwoBlockFaults (.vaddb o1 o2 o3) s o1 o2 o3 ∧
    (config.blockFits o1 = true → config.blockFits o2 = true → config.blockFits o3 = true →
      Completes (.vaddb o1 o2 o3) s o1 4 fun t => ∀ i, i < 32 → t.reg o1 i = s.reg o3 i + s.reg o2 i)

/-- R102. -/
def Obligations.VadddAddsDwords : Prop :=
  ∀ (o1 o2 o3 : Byte) (s : State),
    encode (.vaddd o1 o2 o3) = [0x0B, o1, o2, o3] ∧
    TwoBlockFaults (.vaddd o1 o2 o3) s o1 o2 o3 ∧
    (config.blockFits o1 = true → config.blockFits o2 = true → config.blockFits o3 = true →
      Completes (.vaddd o1 o2 o3) s o1 4 fun t => ∀ k, k < 8 → t.dword o1 k = s.dword o3 k + s.dword o2 k)

/-- R103, R104, R105. -/
def Obligations.LogicActsOnEachBit : Prop :=
  ∀ (o1 o2 o3 : Byte) (s : State),
    encode (.vand o1 o2 o3) = [0x04, o1, o2, o3] ∧
    encode (.vor o1 o2 o3) = [0x03, o1, o2, o3] ∧
    encode (.vxor o1 o2 o3) = [0x02, o1, o2, o3] ∧
    TwoBlockFaults (.vand o1 o2 o3) s o1 o2 o3 ∧
    TwoBlockFaults (.vor o1 o2 o3) s o1 o2 o3 ∧
    TwoBlockFaults (.vxor o1 o2 o3) s o1 o2 o3 ∧
    (config.blockFits o1 = true → config.blockFits o2 = true → config.blockFits o3 = true →
      (Completes (.vand o1 o2 o3) s o1 4 fun t => ∀ i, i < 32 → t.reg o1 i = s.reg o3 i &&& s.reg o2 i) ∧
      (Completes (.vor o1 o2 o3) s o1 4 fun t => ∀ i, i < 32 → t.reg o1 i = s.reg o3 i ||| s.reg o2 i) ∧
      (Completes (.vxor o1 o2 o3) s o1 4 fun t => ∀ i, i < 32 → t.reg o1 i = s.reg o3 i ^^^ s.reg o2 i))

/-- R106: 1 or 0, never 0xFF. -/
def Obligations.VcmpeqbGivesOneOrZero : Prop :=
  ∀ (o1 o2 o3 : Byte) (s : State),
    encode (.vcmpeqb o1 o2 o3) = [0x16, o1, o2, o3] ∧
    TwoBlockFaults (.vcmpeqb o1 o2 o3) s o1 o2 o3 ∧
    (config.blockFits o1 = true → config.blockFits o2 = true → config.blockFits o3 = true →
      Completes (.vcmpeqb o1 o2 o3) s o1 4 fun t =>
        ∀ i, i < 32 → t.reg o1 i = if s.reg o3 i = s.reg o2 i then 1 else 0)

/-- R105's law "Vector-xor is self-inverse": xor into o1, then xor that with the same block o2. -/
def Obligations.VxorIsSelfInverse : Prop :=
  ∀ (d o1 o2 o3 : Byte) (s : State),
    config.blockFits d = true → config.blockFits o1 = true → config.blockFits o2 = true →
    config.blockFits o3 = true → o1 ≠ o2 →
    ∃ t u, exec (.vxor o1 o2 o3) s = .next t ∧ exec (.vxor d o2 o1) t = .next u ∧
      ∀ i, i < 32 → u.reg d i = s.reg o3 i

/-- R111: (x * 2^c) mod 2^32, the count not reduced; 0 in every lane for c >= 32. -/
def Obligations.VslldShiftsLeft : Prop :=
  ∀ (o1 o2 o3 : Byte) (s : State),
    encode (.vslld o1 o2 o3) = [0x13, o1, o2, o3] ∧
    ShiftFaults (.vslld o1 o2 o3) s o1 o2 ∧
    (config.blockFits o1 = true → config.blockFits o2 = true →
      Completes (.vslld o1 o2 o3) s o1 4 fun t => ∀ k, k < 8 →
        (t.dword o1 k).toNat = (s.dword o2 k).toNat * 2 ^ o3.toNat % 2 ^ 32 ∧
        (32 ≤ o3.toNat → t.dword o1 k = 0))

/-- R112: floor(x / 2^c), x unsigned; 0 in every lane for c >= 32. -/
def Obligations.VsrldShiftsRight : Prop :=
  ∀ (o1 o2 o3 : Byte) (s : State),
    encode (.vsrld o1 o2 o3) = [0x12, o1, o2, o3] ∧
    ShiftFaults (.vsrld o1 o2 o3) s o1 o2 ∧
    (config.blockFits o1 = true → config.blockFits o2 = true →
      Completes (.vsrld o1 o2 o3) s o1 4 fun t => ∀ k, k < 8 →
        (t.dword o1 k).toNat = (s.dword o2 k).toNat / 2 ^ o3.toNat ∧
        (32 ≤ o3.toNat → t.dword o1 k = 0))

/-- R121: signed words, exact products and sum, reduced modulo 2^32. -/
def Obligations.VmaddwdMultipliesAndAddsWords : Prop :=
  ∀ (o1 o2 o3 : Byte) (s : State),
    encode (.vmaddwd o1 o2 o3) = [0x01, o1, o2, o3] ∧
    TwoBlockFaults (.vmaddwd o1 o2 o3) s o1 o2 o3 ∧
    (config.blockFits o1 = true → config.blockFits o2 = true → config.blockFits o3 = true →
      Completes (.vmaddwd o1 o2 o3) s o1 4 fun t => ∀ k, k < 8 →
        t.dword o1 k = BitVec.ofInt 32
          ((s.word o3 (2 * k)).toInt * (s.word o2 (2 * k)).toInt +
           (s.word o3 (2 * k + 1)).toInt * (s.word o2 (2 * k + 1)).toInt))

/-- R122: signed bytes in both sources, exact products and sum, reduced modulo 2^16. -/
def Obligations.VmaddbwMultipliesAndAddsBytes : Prop :=
  ∀ (o1 o2 o3 : Byte) (s : State),
    encode (.vmaddbw o1 o2 o3) = [0x00, o1, o2, o3] ∧
    TwoBlockFaults (.vmaddbw o1 o2 o3) s o1 o2 o3 ∧
    (config.blockFits o1 = true → config.blockFits o2 = true → config.blockFits o3 = true →
      Completes (.vmaddbw o1 o2 o3) s o1 4 fun t => ∀ k, k < 16 →
        t.word o1 k = BitVec.ofInt 16
          ((s.reg o3 (2 * k)).toInt * (s.reg o2 (2 * k)).toInt +
           (s.reg o3 (2 * k + 1)).toInt * (s.reg o2 (2 * k + 1)).toInt))

/-- R130: the selector is o2, the data o3; the lowest-numbered bad selector lane raises PermuteIndex, after
the two reads and before the write. -/
def Obligations.VpermdPermutesDwords : Prop :=
  ∀ (o1 o2 o3 : Byte) (s : State),
    encode (.vpermd o1 o2 o3) = [0x15, o1, o2, o3] ∧
    SourceReadsFault (.vpermd o1 o2 o3) s o2 o3 ∧
    (config.blockFits o2 = true → config.blockFits o3 = true →
      (∀ k, k < 8 → (∀ j, j < k → goodSelector (s.dword o2 j)) → ¬ goodSelector (s.dword o2 k) →
        exec (.vpermd o1 o2 o3) s = .next (s.faulted .permuteIndex (s.dword o2 k).toNat)) ∧
      ((∀ k, k < 8 → goodSelector (s.dword o2 k)) →
        (config.blockFits o1 = false →
          exec (.vpermd o1 o2 o3) s = .next (s.faulted .outOfRange (config.blockOffset o1))) ∧
        (config.blockFits o1 = true →
          Completes (.vpermd o1 o2 o3) s o1 4 fun t => ∀ k, k < 8 →
            t.dword o1 k =
              if s.dword o2 k = 0xFFFFFFFF then 0 else s.dword o3 (s.dword o2 k).toNat)))

/-- R131: the data is o2, the mask o3; in mode low every byte comes from bytes 0 to 15 of the data, in mode
local (the parameter's other value) from the half that holds the output byte. -/
def Obligations.VshufbShufflesBytes : Prop :=
  ∀ (o1 o2 o3 : Byte) (s : State),
    encode (.vshufb o1 o2 o3) = [0x14, o1, o2, o3] ∧
    TwoBlockFaults (.vshufb o1 o2 o3) s o1 o2 o3 ∧
    (config.blockFits o1 = true → config.blockFits o2 = true → config.blockFits o3 = true →
      (Completes (.vshufb o1 o2 o3) s o1 4 fun t => ∀ i, i < 32 →
        t.reg o1 i =
          if 0x80 ≤ (s.reg o3 i).toNat then 0 else s.reg o2 ((s.reg o3 i).toNat % 16)) ∧
      ∃ t, execIn { config with shufHalfMode := .localHalf } (.vshufb o1 o2 o3) s = .next t ∧
        WritesOnlyBlock s t o1 4 ∧
        ∀ i, i < 32 →
          t.reg o1 i =
            if 0x80 ≤ (s.reg o3 i).toNat then 0
            else s.reg o2 (16 * (i / 16) + (s.reg o3 i).toNat % 16))

/-- R140: the immediate's byte j becomes byte j of the block, ip steps over all 34 bytes; the immediate
fetch is checked before the write. -/
def Obligations.VloadiLoadsTheImmediate : Prop :=
  (∀ (o1 : Byte) (imm : Block) (s : State), imm.length = 32 →
    encode (.vloadi o1 imm) = [0x11, o1] ++ imm ∧
    (config.blockFits o1 = false →
      exec (.vloadi o1 imm) s = .next (s.faulted .outOfRange (config.blockOffset o1))) ∧
    (config.blockFits o1 = true →
      Completes (.vloadi o1 imm) s o1 34 fun t => ∀ j, j < 32 → t.reg o1 j = imm.getD j 0)) ∧
  ∀ s : State, s.status = .running → s.ip + 2 ≤ config.memSize → s.opcodeByte = 0x11 →
    config.memSize < s.ip + 34 → step s = .next (s.faulted .outOfRange (s.ip + 2))

/-- R150 to R161: an inert instruction moves ip over its bytes and changes nothing else, whatever its
operand bytes name; a step that fetches one can fault on the opcode or the operand fetch only. -/
def Obligations.InertInstructionsOnlyAdvanceIp : Prop :=
  (∀ s : State, s.status = .running →
    (config.memSize ≤ s.ip → step s = .next (s.faulted .outOfRange s.ip)) ∧
    ∀ row, s.ip < config.memSize → config.rowOf s.opcodeByte = some row → row.handler.inert = true →
      step s = .next (if config.memSize < s.ip + 1 + row.count then s.faulted .outOfRange (s.ip + 1)
        else { s with ip := s.ip + 1 + row.count })) ∧
  ∀ (o1 o2 o3 : Byte) (s : State),
    (encode .nop = [0x17] ∧ exec .nop s = .next { s with ip := s.ip + 1 }) ∧
    (encode (.vmov o1 o2) = [0x10, o1, o2] ∧ exec (.vmov o1 o2) s = .next { s with ip := s.ip + 3 }) ∧
    (encode (.vxorc o1 o2 o3) = [0x05, o1, o2, o3] ∧ exec (.vxorc o1 o2 o3) s = .next { s with ip := s.ip + 4 }) ∧
    (encode (.vaddwu o1 o2 o3) = [0x06, o1, o2, o3] ∧ exec (.vaddwu o1 o2 o3) s = .next { s with ip := s.ip + 4 }) ∧
    (encode (.vsubb o1 o2 o3) = [0x08, o1, o2, o3] ∧ exec (.vsubb o1 o2 o3) s = .next { s with ip := s.ip + 4 }) ∧
    (encode (.vaddw o1 o2 o3) = [0x09, o1, o2, o3] ∧ exec (.vaddw o1 o2 o3) s = .next { s with ip := s.ip + 4 }) ∧
    (encode (.vsubw o1 o2 o3) = [0x0A, o1, o2, o3] ∧ exec (.vsubw o1 o2 o3) s = .next { s with ip := s.ip + 4 }) ∧
    (encode (.vsubd o1 o2 o3) = [0x0C, o1, o2, o3] ∧ exec (.vsubd o1 o2 o3) s = .next { s with ip := s.ip + 4 }) ∧
    (encode (.vaddq o1 o2 o3) = [0x0D, o1, o2, o3] ∧ exec (.vaddq o1 o2 o3) s = .next { s with ip := s.ip + 4 }) ∧
    (encode (.vsubq o1 o2 o3) = [0x0E, o1, o2, o3] ∧ exec (.vsubq o1 o2 o3) s = .next { s with ip := s.ip + 4 }) ∧
    (encode (.vmullm o1 o2 o3) = [0x0F, o1, o2, o3] ∧ exec (.vmullm o1 o2 o3) s = .next { s with ip := s.ip + 4 })

/-! The whole machine. -/

/-- R26: no instruction has a side effect outside the one block it writes and ip; the block is the one its
first operand byte names. The forms that store nothing (the halt sentinel and the inert handlers, R83 and
R150) leave every byte of MEM as it was. STATUS and the fault registers change only at a fault, which no such
form takes, or at the halt sentinel. -/
def Obligations.OneBlockIsTheOnlySideEffect : Prop :=
  ∀ (i : Instr) (s t : State), exec i s = .next t →
    (∀ a, (a < config.blockOffset (i.operands.headD 0) ∨ config.blockOffset (i.operands.headD 0) + 32 ≤ a) →
      t.mem.read a = s.mem.read a) ∧
    (storesNothing i = true → ∀ a, t.mem.read a = s.mem.read a) ∧
    (if i = .halt then t = s.halt
     else SameControl s t ∨ (storesNothing i = false ∧ ∃ cause info, t = s.faulted cause info))

/-- R41: no step writes an offset below RAM_BASE. -/
def Obligations.NoStepWritesBelowRamBase : Prop :=
  ∀ s t : State, step s = .next t → ∀ a, a < config.ramBase → t.mem.read a = s.mem.read a

/-- The reset state has the invariant. Its clause that MEM is in canonical form (`Memory.wf`) is about how the
model holds MEM and is the model's choice (log 2), no rule of the spec. -/
def Obligations.ResetMeetsTheInvariant : Prop := State.reset.Inv

/-- Every step keeps the invariant: ip and FAULT_PC stay between 0 and MEM_SIZE, and the fault registers are
clear unless STATUS is FAULTED (R20, R24, R27); and MEM stays in canonical form (`Memory.wf`), a clause about
how the model holds MEM that is the model's choice (log 2) and no rule of the spec. -/
def Obligations.EveryStepKeepsTheInvariant : Prop :=
  ∀ s t : State, s.Inv → step s = .next t → t.Inv

/-- So does every host operation that changes the state (R192 to R196), a whole run included; the
canonical-form clause of the invariant is the model's choice here too (log 2). -/
def Obligations.HostOperationsKeepTheInvariant : Prop :=
  ∀ s : State, s.Inv →
    (hostReset s).Inv ∧
    (∀ image t, hostLoad image s = .ok t → t.Inv) ∧
    (∀ data t, hostSetInput data s = .ok t → t.Inv) ∧
    ∀ t, hostRun s = .ok t → t.Inv

/-- Every run ends, in HALTED or FAULTED, after at most one step for each byte of MEM from ip on and one
more (R86, R87; log 8 for the one more), and so HostRun always answers an ended run (R195). -/
def Obligations.EveryRunEnds : Prop :=
  (∀ s : State, s.status = .running → s.ip ≤ config.memSize →
    (runWith step (config.memSize - s.ip + 1) s).status.ended = true) ∧
  ∀ s t : State, hostRun s = .ok t → t.status.ended = true

/-- R30: execution is deterministic given identical memory content: two states with the same registers and
the same bytes, however their memories are held, step alike and stay so; nothing else is read. -/
def Obligations.StepReadsOnlyTheArchitecturalState : Prop :=
  ∀ s t s' : State, s.Same t → step s = .next s' → ∃ t', step t = .next t' ∧ s'.Same t'

/-! Reset and the host interface. -/

/-- R33, R190: the state after a hardware reset. That MEM, which those rules leave unspecified, is the free
value at every offset is the model's form (log 1). -/
def Obligations.ResetState : Prop :=
  State.reset.ip = 0 ∧ State.reset.status = .idle ∧ State.reset.faultCause = .none ∧
  State.reset.faultPc = 0 ∧ State.reset.faultInfo = 0 ∧
  ∀ a, State.reset.mem.read a = Config.unloadedByte a

/-- R193: HostReset gives the reset registers from any state, and abandons a run with the MEM its completed
instructions left (the reading of log 9). -/
def Obligations.HostResetAbandonsTheRun : Prop :=
  ∀ s : State, hostReset s = { State.reset with mem := (hostReset s).mem } ∧
    (s.status = .running → (hostReset s).mem = s.mem)

/-- R194: HostLoad fills MEM byte for byte and gives the start registers. -/
def Obligations.HostLoadFillsMemory : Prop :=
  ∀ (image : List Byte) (s : State), s.status ≠ .running → image.length = config.memSize →
    ∃ t, hostLoad image s = .ok t ∧ (∀ a, a < config.memSize → t.mem.read a = image.getD a 0) ∧
      t.ip = 0 ∧ t.status = .idle ∧ t.faultCause = .none ∧ t.faultPc = 0 ∧ t.faultInfo = 0

/-- R195: under every configuration (R6), HostRun starts at ip 0 with the fault registers clear and MEM as it
is, and applies Step until the run has ended: more steps would not change its answer. -/
def Obligations.HostRunStartsAtZeroAndRunsToTheEnd : Prop :=
  ∀ (c : Config) (s : State), s.status ≠ .running →
    ∃ t, hostRun s c = .ok t ∧ (t.status = .halted ∨ t.status = .faulted) ∧
      ∀ n, c.memSize + 1 ≤ n →
        t = runWith (stepIn c) n
          { s with ip := 0, status := .running, faultCause := .none, faultPc := 0, faultInfo := 0 }

/-- R196 (and R174): HostSetInput writes the zero-padded data to the input region and nothing else, or is
refused. -/
def Obligations.HostSetInputWritesTheInputRegion : Prop :=
  ∀ (data : List Byte) (s : State), s.status ≠ .running →
    (config.inputLen < data.length → hostSetInput data s = .error (.inputTooLong data.length)) ∧
    (data.length ≤ config.inputLen →
      ∃ t, hostSetInput data s = .ok t ∧
        (∀ j, j < config.inputLen → t.mem.read (config.inputOff + j) = if j < data.length then data.getD j 0 else 0) ∧
        (∀ a, (a < config.inputOff ∨ config.inputOff + config.inputLen ≤ a) → t.mem.read a = s.mem.read a) ∧
        t.ip = s.ip ∧ SameControl s t)

/-- R197 to R200: what the host reads back, after a halt for Verify and Result. The model's own forms in it:
the name and argument of the error of a failing read, of which R197 says only that it fails (log 10), and
VERIFY_A, VERIFY_B and VERIFY_LEN, which R198 leaves open, as arguments, with the answer true for the length
0, for which R198 gives none (log 11). -/
def Obligations.HostReadsBack : Prop :=
  ∀ s : State,
    hostStatus s = (s.status, s.faultCause, s.faultPc, s.faultInfo) ∧
    (s.status ≠ .running → ∀ a n, a + n ≤ config.memSize →
      ∃ l, hostReadMem a n s = .ok l ∧ l.length = n ∧ ∀ j, j < n → l.getD j 0 = s.mem.read (a + j)) ∧
    (s.status ≠ .running → ∀ a n, config.memSize < a + n → hostReadMem a n s = .error (.outOfRange a)) ∧
    (s.status = .halted →
      (∀ (va vb : Byte) (len : Nat), config.blockFits va = true → config.blockFits vb = true → len ≤ 32 →
        ∃ b, hostVerify va vb len s = .ok b ∧ (b = true ↔ ∀ j, j < len → s.reg va j = s.reg vb j)) ∧
      ∃ l, hostResult s = .ok l ∧ l.length = 32 ∧ ∀ j, j < 32 → l.getD j 0 = s.reg 1 j ^^^ s.reg 0x1F j)

/-- R32, R192: while a run is going on every host operation but HostStatus and HostReset is refused, and
Verify and Result are refused unless STATUS is HALTED. -/
def Obligations.HostIsRefusedDuringARun : Prop :=
  ∀ s : State,
    (s.status = .running →
      (∀ image, hostLoad image s = .error (.notAllowed .running)) ∧
      (∀ data, hostSetInput data s = .error (.notAllowed .running)) ∧
      hostRun s = .error (.notAllowed .running) ∧
      ∀ a n, hostReadMem a n s = .error (.notAllowed .running)) ∧
    (s.status ≠ .halted →
      (∀ va vb len, hostVerify va vb len s = .error (.notAllowed s.status)) ∧
      hostResult s = .error (.notAllowed s.status))
end

