-- ==== Sys2Proof/Laws/State.lean ====
section
/-! SUPPORT. One lemma per field and update of the state, and the parameters' values. -/

namespace Sys2Proof

@[simp] theorem config_ramBase : config.ramBase = 0x800 := rfl
@[simp] theorem config_memSize : config.memSize = 0xC00 := rfl
@[simp] theorem config_inputOff : config.inputOff = 0x25 := rfl
@[simp] theorem config_inputLen : config.inputLen = 0x20 := rfl
@[simp] theorem config_laneOrder : config.laneOrder = .little := rfl
@[simp] theorem config_shufHalfMode : config.shufHalfMode = .low := rfl
@[simp] theorem config_permSelectorOperand : config.permSelectorOperand = .o2 := rfl
@[simp] theorem config_shufMaskOperand : config.shufMaskOperand = .o3 := rfl
@[simp] theorem config_shiftCountOperand : config.shiftCountOperand = .o3 := rfl
@[simp] theorem config_resultA : config.resultA = 1 := rfl
@[simp] theorem config_resultB : config.resultB = 0x1F := rfl

/-- The default table's lengths (R71): VLOADI 34, NOP 1, VMOV 3, the rest 4. -/
@[simp] theorem config_lengthOf (h : Handler) :
    config.lengthOf h = if h = .vloadi then 34 else if h = .nop then 1 else if h = .vmov then 3 else 4 := by
  cases h <;> decide

/-- With the defaults the blocks that exist are 0 to 31 (R23). -/
theorem config_blockFits (i : Byte) : config.blockFits i = true ↔ i.toNat < 32 := by
  simp [Config.blockFits, Config.inRange, Config.blockOffset]
  omega

theorem blockOffset_lower (c : Config) (i : Byte) : c.ramBase ≤ c.blockOffset i := Nat.le_add_right _ _

namespace Machine

@[simp] theorem State.takeFault_mem (s : State) (r : FaultReport) : (s.takeFault r).mem = s.mem := rfl
@[simp] theorem State.takeFault_ip (s : State) (r : FaultReport) : (s.takeFault r).ip = s.ip := rfl
@[simp] theorem State.takeFault_status (s : State) (r : FaultReport) : (s.takeFault r).status = .faulted := rfl
@[simp] theorem State.takeFault_faultCause (s : State) (r : FaultReport) : (s.takeFault r).faultCause = r.cause := rfl
@[simp] theorem State.takeFault_faultPc (s : State) (r : FaultReport) : (s.takeFault r).faultPc = s.ip := rfl
@[simp] theorem State.takeFault_faultInfo (s : State) (r : FaultReport) : (s.takeFault r).faultInfo = r.info := rfl

@[simp] theorem State.startRun_mem (s : State) : (s.startRun).mem = s.mem := rfl
@[simp] theorem State.startRun_ip (s : State) : (s.startRun).ip = 0 := rfl
@[simp] theorem State.startRun_status (s : State) : (s.startRun).status = .running := rfl
@[simp] theorem State.startRun_faultCause (s : State) : (s.startRun).faultCause = .none := rfl
@[simp] theorem State.startRun_faultPc (s : State) : (s.startRun).faultPc = 0 := rfl
@[simp] theorem State.startRun_faultInfo (s : State) : (s.startRun).faultInfo = 0 := rfl

@[simp] theorem State.halt_mem (s : State) : (s.halt).mem = s.mem := rfl
@[simp] theorem State.halt_ip (s : State) : (s.halt).ip = s.ip := rfl
@[simp] theorem State.halt_status (s : State) : (s.halt).status = .halted := rfl
@[simp] theorem State.halt_faultCause (s : State) : (s.halt).faultCause = s.faultCause := rfl
@[simp] theorem State.halt_faultPc (s : State) : (s.halt).faultPc = s.faultPc := rfl
@[simp] theorem State.halt_faultInfo (s : State) : (s.halt).faultInfo = s.faultInfo := rfl

/-- Two states with equal fields are equal. -/
theorem State.eq_of_fields {s t : State} (hm : s.mem = t.mem) (hi : s.ip = t.ip) (hs : s.status = t.status)
    (hc : s.faultCause = t.faultCause) (hp : s.faultPc = t.faultPc) (hf : s.faultInfo = t.faultInfo) : s = t := by
  cases s; cases t; simp_all

end Machine

end Sys2Proof
end

