-- ==== Sys2Proof/Laws/Memory.lean ====
section
/-! SUPPORT. The laws of memory: read after write, the canonical form, and one spec lemma for each of the
three primitives (R43 to R46). -/

namespace Sys2Proof.Machine

theorem lookupCell_append (p q : List Host.Cell) (k : Nat) :
    lookupCell (p ++ q) k = (lookupCell p k).or (lookupCell q k) := by
  induction p with
  | nil => rfl
  | cons x p ih =>
    obtain ⟨n, y⟩ := x
    by_cases h : n = k <;> simp [lookupCell, h, ih]

theorem lookupCell_filter (f : Nat → Bool) (cells : List Host.Cell) (k : Nat) :
    lookupCell (cells.filter fun x => f x.1) k = if f k then lookupCell cells k else none := by
  induction cells with
  | nil => simp [lookupCell]
  | cons x rest ih =>
    obtain ⟨n, y⟩ := x
    by_cases hf : f n <;> by_cases hn : n = k <;> simp_all [lookupCell]

theorem listCells_bounds {loaded : Bool} {bs : List Byte} {a : Nat} {x : Host.Cell}
    (h : x ∈ listCells loaded a bs) : a ≤ x.1 ∧ x.1 < a + bs.length ∧ (loaded = true → x.2 ≠ 0) := by
  induction bs generalizing a with
  | nil => simp [listCells] at h
  | cons b bs ih =>
    unfold listCells at h
    simp only [List.length_cons]
    split at h
    · obtain ⟨h1, h2, h3⟩ := ih h
      exact ⟨by omega, by omega, h3⟩
    · rename_i hb
      rcases List.mem_cons.1 h with rfl | h
      · refine ⟨le_refl _, by omega, fun hl h0 => hb ?_⟩
        simp_all
      · obtain ⟨h1, h2, h3⟩ := ih h
        exact ⟨by omega, by omega, h3⟩

theorem listCells_rising (loaded : Bool) (bs : List Byte) (a : Nat) :
    (listCells loaded a bs).Pairwise (fun x y => x.1 < y.1) := by
  induction bs generalizing a with
  | nil => simp [listCells]
  | cons b bs ih =>
    unfold listCells
    split
    · exact ih _
    · refine List.pairwise_cons.2 ⟨fun x hx => ?_, ih _⟩
      have := (listCells_bounds hx).1
      simp only
      omega

theorem lookupCell_of_not_mem {cells : List Host.Cell} {k : Nat} (h : ∀ x ∈ cells, x.1 ≠ k) :
    lookupCell cells k = none := by
  induction cells with
  | nil => rfl
  | cons x rest ih =>
    obtain ⟨n, y⟩ := x
    rw [lookupCell, if_neg (h (n, y) (by simp)), ih fun x hx => h x (by simp [hx])]

theorem lookupCell_listCells (loaded : Bool) (bs : List Byte) (a j : Nat) (h : j < bs.length) :
    lookupCell (listCells loaded a bs) (a + j) =
      if loaded && bs.getD j 0 == 0 then none else some (bs.getD j 0) := by
  induction bs generalizing a j with
  | nil => simp at h
  | cons b bs ih =>
    unfold listCells
    cases j with
    | zero =>
      simp only [Nat.add_zero, List.getD_cons_zero]
      split
      · exact lookupCell_of_not_mem fun x hx => by have := (listCells_bounds hx).1; omega
      · rw [lookupCell, if_pos rfl]
    | succ j =>
      rw [List.length_cons] at h
      have e : a + (j + 1) = a + 1 + j := by omega
      rw [List.getD_cons_succ, e, ← ih (a + 1) j (by omega)]
      split
      · rfl
      · rw [lookupCell, if_neg (by omega)]

@[simp] theorem Memory.writeBytes_loaded (m : Memory) (a : Nat) (bs : List Byte) :
    (m.writeBytes a bs).loaded = m.loaded := rfl

/-- Reading after a write: byte `j` at offset `a + j`, everything else as before; on every memory, in
canonical form or not. -/
theorem Memory.read_writeBytes (m : Memory) (a k : Nat) (bs : List Byte) :
    (m.writeBytes a bs).read k = if a ≤ k ∧ k < a + bs.length then bs.getD (k - a) 0 else m.read k := by
  have hu : (m.writeBytes a bs).unlisted k = m.unlisted k := rfl
  rw [Memory.read, hu]
  simp only [Memory.writeBytes]
  rw [lookupCell_append, lookupCell_append, lookupCell_filter (fun n => decide (n < a)),
    lookupCell_filter (fun n => decide (a + bs.length ≤ n))]
  by_cases h : a ≤ k ∧ k < a + bs.length
  · obtain ⟨j, rfl⟩ := Nat.exists_eq_add_of_le h.1
    rw [lookupCell_listCells _ _ _ _ (by omega), if_pos h]
    have h1 : ¬ a + j < a := by omega
    have h2 : ¬ a + bs.length ≤ a + j := by omega
    simp only [h1, h2, decide_false, Bool.false_eq_true, if_false, Option.none_or, Option.or_none,
      Nat.add_sub_cancel_left, Memory.unlisted]
    generalize bs.getD j 0 = b
    cases m.loaded <;> by_cases hb : b = 0#8 <;> simp [hb]
  · rw [if_neg h, lookupCell_of_not_mem (cells := listCells m.loaded a bs) fun x hx => by
      have := listCells_bounds hx
      omega]
    by_cases h1 : k < a
    · have h2 : ¬ a + bs.length ≤ k := by omega
      simp [h1, h2, Memory.read]
    · have h2 : a + bs.length ≤ k := by omega
      simp [h1, h2, Memory.read]

theorem Memory.read_writeBytes_outside (m : Memory) (a k : Nat) (bs : List Byte)
    (h : k < a ∨ a + bs.length ≤ k) : (m.writeBytes a bs).read k = m.read k := by
  rw [Memory.read_writeBytes, if_neg (by omega)]

theorem Memory.read_writeBytes_inside (m : Memory) (a j : Nat) (bs : List Byte) (h : j < bs.length) :
    (m.writeBytes a bs).read (a + j) = bs.getD j 0 := by
  rw [Memory.read_writeBytes, if_pos (by omega)]; simp

@[simp] theorem Memory.length_bytes (m : Memory) (a n : Nat) : (m.bytes a n).length = n := by
  simp [Memory.bytes]

theorem Memory.getD_bytes (m : Memory) (a n j : Nat) (h : j < n) : (m.bytes a n).getD j 0 = m.read (a + j) := by
  simp [Memory.bytes, List.getD, h]

/-! The canonical form. -/

theorem risingCells_iff (cells : List Host.Cell) :
    risingCells cells = true ↔ cells.Pairwise (fun x y => x.1 < y.1) := by
  induction cells with
  | nil => simp [risingCells]
  | cons x rest ih =>
    cases rest with
    | nil => simp [risingCells]
    | cons y rest =>
      simp only [risingCells, Bool.and_eq_true, decide_eq_true_eq, ih]
      rw [List.pairwise_cons (a := x)]
      constructor
      · rintro ⟨h, hp⟩
        refine ⟨fun z hz => ?_, hp⟩
        rcases List.mem_cons.1 hz with rfl | hz
        · exact h
        · exact lt_trans h (List.rel_of_pairwise_cons hp hz)
      · rintro ⟨h, hp⟩
        exact ⟨h y (by simp), hp⟩

/-- What the canonical form says. -/
theorem Memory.wf_iff (m : Memory) (c : Config) :
    m.wf c = true ↔ m.cells.Pairwise (fun x y => x.1 < y.1) ∧
      ∀ x ∈ m.cells, x.1 < c.memSize ∧ (m.loaded = true → x.2 ≠ 0) := by
  simp only [Memory.wf, Bool.and_eq_true, risingCells_iff, List.all_eq_true, decide_eq_true_eq]
  constructor
  · rintro ⟨h1, h2⟩
    exact ⟨h1, fun x hx => ⟨(h2 x hx).1, fun hl => by have := (h2 x hx).2; simpa [hl] using this⟩⟩
  · rintro ⟨h1, h2⟩
    refine ⟨h1, fun x hx => ⟨(h2 x hx).1, ?_⟩⟩
    cases hl : m.loaded
    · simp
    · simpa using (h2 x hx).2 hl

/-- A write inside MEM keeps the canonical form. -/
theorem Memory.writeBytes_wf {m : Memory} {c : Config} (h : m.wf c = true) {a : Nat} {bs : List Byte}
    (ha : a + bs.length ≤ c.memSize) : (m.writeBytes a bs).wf c = true := by
  rw [Memory.wf_iff] at h ⊢
  obtain ⟨hp, hb⟩ := h
  constructor
  · refine List.pairwise_append.2 ⟨List.pairwise_append.2 ⟨hp.filter _, listCells_rising _ _ _, ?_⟩, hp.filter _, ?_⟩
    · intro x hx y hy
      have h1 := (listCells_bounds hy).1
      have h2 : x.1 < a := by simpa using (List.mem_filter.1 hx).2
      omega
    · intro x hx y hy
      have h2 : a + bs.length ≤ y.1 := by simpa using (List.mem_filter.1 hy).2
      rcases List.mem_append.1 hx with hx | hx
      · have h1 : x.1 < a := by simpa using (List.mem_filter.1 hx).2
        omega
      · have h1 := (listCells_bounds hx).2.1
        omega
  · intro x hx
    rcases List.mem_append.1 hx with hx | hx
    · rcases List.mem_append.1 hx with hx | hx
      · exact hb x (List.mem_of_mem_filter hx)
      · obtain ⟨h1, h2, h3⟩ := listCells_bounds hx
        exact ⟨by omega, h3⟩
    · exact hb x (List.mem_of_mem_filter hx)

theorem lookupCell_eq_some {cells : List Host.Cell} (h : cells.Pairwise (fun x y => x.1 < y.1)) {a : Nat} {b : Byte} :
    lookupCell cells a = some b ↔ (a, b) ∈ cells := by
  induction cells with
  | nil => simp [lookupCell]
  | cons x rest ih =>
    obtain ⟨n, v⟩ := x
    rw [List.pairwise_cons] at h
    by_cases hn : n = a
    · subst hn
      simp only [lookupCell, if_true, Option.some.injEq, List.mem_cons, Prod.mk.injEq, true_and]
      constructor
      · intro h; exact .inl h.symm
      · rintro (h' | h')
        · exact h'.symm
        · exact absurd (h.1 _ h') (lt_irrefl _)
    · simp [lookupCell, hn, ih h.2, Ne.symm hn]

/-- EQUAL MEMORIES ARE EQUAL DATA: two loaded memories in canonical form that read the same everywhere
are the same list. -/
theorem Memory.eq_of_read {m n : Memory} {c : Config} (hm : m.wf c = true) (hn : n.wf c = true)
    (lm : m.loaded = true) (ln : n.loaded = true) (h : ∀ a, m.read a = n.read a) : m = n := by
  rw [Memory.wf_iff] at hm hn
  have key : ∀ {p q : Memory}, p.cells.Pairwise (fun x y => x.1 < y.1) → q.cells.Pairwise (fun x y => x.1 < y.1) →
      (∀ x ∈ p.cells, x.2 ≠ 0) → p.loaded = true → q.loaded = true → (∀ a, p.read a = q.read a) →
      ∀ x ∈ p.cells, x ∈ q.cells := by
    intro p q hp hq h0 lp lq hr ⟨a, b⟩ hx
    have h1 := hr a
    have h2 := (lookupCell_eq_some hp).2 hx
    rw [Memory.read, Memory.read, h2, Memory.unlisted, Memory.unlisted, lp, lq] at h1
    cases hl : lookupCell q.cells a with
    | none => rw [hl] at h1; exact absurd (by simpa using h1) (h0 _ hx)
    | some y =>
      rw [hl] at h1
      have : b = y := by simpa using h1
      subst this
      exact (lookupCell_eq_some hq).1 hl
  have hperm : m.cells.Perm n.cells := by
    refine (List.perm_ext_iff_of_nodup ?_ ?_).2 fun x => ⟨?_, ?_⟩
    · exact hm.1.imp fun h e => absurd (e ▸ h) (lt_irrefl _)
    · exact hn.1.imp fun h e => absurd (e ▸ h) (lt_irrefl _)
    · exact key hm.1 hn.1 (fun x hx => (hm.2 x hx).2 lm) lm ln h x
    · exact key hn.1 hm.1 (fun x hx => (hn.2 x hx).2 ln) ln lm (fun a => (h a).symm) x
  have hc : m.cells = n.cells :=
    List.Perm.eq_of_pairwise (fun x y _ _ h1 h2 => absurd (lt_trans h1 h2) (lt_irrefl _)) hm.1 hn.1 hperm
  cases m; cases n; simp_all

/-! A loaded image. -/

theorem Memory.read_ofImage (image : List Byte) (a : Nat) :
    (Memory.ofImage image).read a = image.getD a 0 := by
  simp only [Memory.read, Memory.ofImage, Memory.unlisted, if_true]
  by_cases h : a < image.length
  · have := lookupCell_listCells true image 0 a h
    rw [Nat.zero_add] at this
    rw [this]
    generalize image.getD a 0 = b
    by_cases hb : b = 0#8 <;> simp [hb]
  · rw [lookupCell_of_not_mem fun x hx => by have := listCells_bounds hx; omega,
      List.getD_eq_getElem?_getD, List.getElem?_eq_none (by omega)]

theorem Memory.ofImage_wf {image : List Byte} {c : Config} (h : image.length ≤ c.memSize) :
    (Memory.ofImage image).wf c = true := by
  rw [Memory.wf_iff]
  refine ⟨listCells_rising _ _ _, fun x hx => ?_⟩
  have := listCells_bounds hx
  exact ⟨by omega, this.2.2⟩

/-! The three primitives. -/

theorem inRange_iff (c : Config) (a n : Nat) : c.inRange a n = true ↔ a + n ≤ c.memSize := by
  simp [Config.inRange]

theorem checkRange_of_inRange {c : Config} {a n : Nat} (h : c.inRange a n = true) :
    checkRange c a n = .ok () := by simp [checkRange, h]

theorem checkRange_of_outOfRange {c : Config} {a n : Nat} (h : c.inRange a n = false) :
    checkRange c a n = .error { cause := .outOfRange, info := a } := by simp [checkRange, h]

theorem readBlock_of_fits {c : Config} {m : Memory} {i : Byte} (h : c.blockFits i = true) :
    m.readBlock c i = .ok (m.bytes (c.blockOffset i) 32) := by
  simp only [Memory.readBlock, checkRange_of_inRange h]; rfl

theorem readBlock_of_not_fits {c : Config} {m : Memory} {i : Byte} (h : c.blockFits i = false) :
    m.readBlock c i = .error { cause := .outOfRange, info := c.blockOffset i } := by
  simp only [Memory.readBlock, checkRange_of_outOfRange h]; rfl

theorem writeBlock_of_fits {c : Config} {m : Memory} {i : Byte} {data : Block} (h : c.blockFits i = true) :
    m.writeBlock c i data = .ok (m.writeBytes (c.blockOffset i) (data.take 32)) := by
  simp only [Memory.writeBlock, checkRange_of_inRange h]; rfl

theorem writeBlock_of_not_fits {c : Config} {m : Memory} {i : Byte} {data : Block} (h : c.blockFits i = false) :
    m.writeBlock c i data = .error { cause := .outOfRange, info := c.blockOffset i } := by
  simp only [Memory.writeBlock, checkRange_of_outOfRange h]; rfl

/-- Everything a WriteBlock that succeeds does. -/
theorem writeBlock_ok {c : Config} {m m' : Memory} {i : Byte} {data : Block} (h : m.writeBlock c i data = .ok m') :
    c.blockFits i = true ∧ m' = m.writeBytes (c.blockOffset i) (data.take 32) := by
  cases hf : c.blockFits i
  · rw [writeBlock_of_not_fits hf] at h; cases h
  · rw [writeBlock_of_fits hf] at h
    exact ⟨rfl, (Except.ok.inj h).symm⟩

theorem writeBlock_wf {c : Config} {m m' : Memory} {i : Byte} {data : Block} (hm : m.wf c = true)
    (h : m.writeBlock c i data = .ok m') : m'.wf c = true := by
  obtain ⟨hf, rfl⟩ := writeBlock_ok h
  refine Memory.writeBytes_wf hm ?_
  have := (inRange_iff c _ _).1 hf
  have : (data.take 32).length ≤ 32 := by simp
  omega

end Sys2Proof.Machine
end

