-- ==== Sys2Proof/Laws/Lanes.lean ====
section
/-! SUPPORT. The laws of packing and of the lane views (R9): a packed block has 32 bytes, and viewing a
packed lane gives the value reduced modulo the lane width. -/

namespace Sys2Proof.Machine

@[simp] theorem length_packLanes (o : LaneOrder) (w : Nat) (f : Nat → Int) : (packLanes o w f).length = 32 := by
  simp [packLanes]

@[simp] theorem length_pack8 (f : Nat → Int) : (pack8 f).length = 32 := length_packLanes _ _ _

@[simp] theorem length_pack16 (o : LaneOrder) (f : Nat → Int) : (pack16 o f).length = 32 := length_packLanes _ _ _

@[simp] theorem length_pack32 (o : LaneOrder) (f : Nat → Int) : (pack32 o f).length = 32 := length_packLanes _ _ _

theorem getD_packLanes (o : LaneOrder) (w : Nat) (f : Nat → Int) {p : Nat} (h : p < 32) :
    (packLanes o w f).getD p 0 = laneByte w (f (p / w)) (LaneOrder.place o w (p % w)) := by
  simp [packLanes, List.getD, h]

/-- pack8: byte i is f(i) mod 256. -/
theorem toNat_getD_pack8 (f : Nat → Int) {i : Nat} (h : i < 32) :
    ((pack8 f).getD i 0).toNat = (f i % 256).toNat := by
  rw [pack8, getD_packLanes _ _ _ h]
  have : f i % 256 < 256 := by omega
  simpa [laneByte, LaneOrder.place, Nat.mod_one, Nat.div_one] using this

theorem toNat_laneByte (w : Nat) (v : Int) (j : Nat) :
    (laneByte w v j).toNat = (v % ((2 ^ (8 * w) : Nat) : Int)).toNat / 2 ^ (8 * j) % 256 := by
  simp [laneByte]

/-- A byte of a 16-bit lane packed little-endian. -/
theorem toNat_getD_pack16 (f : Nat → Int) {k j : Nat} (hk : k < 16) (hj : j < 2) :
    ((pack16 .little f).getD (2 * k + j) 0).toNat = (f k % 65536).toNat / 256 ^ j % 256 := by
  rw [pack16, getD_packLanes _ _ _ (by omega), toNat_laneByte]
  have h1 : (2 * k + j) / 2 = k := by omega
  have h2 : (2 * k + j) % 2 = j := by omega
  simp only [h1, h2, LaneOrder.place, pow_mul]
  norm_num

/-- A byte of a 32-bit lane packed little-endian. -/
theorem toNat_getD_pack32 (f : Nat → Int) {k j : Nat} (hk : k < 8) (hj : j < 4) :
    ((pack32 .little f).getD (4 * k + j) 0).toNat = (f k % 4294967296).toNat / 256 ^ j % 256 := by
  rw [pack32, getD_packLanes _ _ _ (by omega), toNat_laneByte]
  have h1 : (4 * k + j) / 4 = k := by omega
  have h2 : (4 * k + j) % 4 = j := by omega
  simp only [h1, h2, LaneOrder.place, pow_mul]
  norm_num

/-- The 32-bit view of a packed block gives each lane back, modulo 2^32. -/
theorem u32_pack32 (f : Nat → Int) {k : Nat} (hk : k < 8) :
    u32 .little (pack32 .little f) k = (f k % 4294967296).toNat := by
  have h0 := toNat_getD_pack32 f hk (j := 0) (by omega)
  have h1 := toNat_getD_pack32 f hk (j := 1) (by omega)
  have h2 := toNat_getD_pack32 f hk (j := 2) (by omega)
  have h3 := toNat_getD_pack32 f hk (j := 3) (by omega)
  have hb : (f k % 4294967296).toNat < 4294967296 := by omega
  simp only [u32, u8]
  rw [Nat.add_zero] at h0
  rw [h0, h1, h2, h3]
  norm_num
  omega

/-- The 16-bit view of a packed block gives each lane back, modulo 2^16. -/
theorem u16_pack16 (f : Nat → Int) {k : Nat} (hk : k < 16) :
    u16 .little (pack16 .little f) k = (f k % 65536).toNat := by
  have h0 := toNat_getD_pack16 f hk (j := 0) (by omega)
  have h1 := toNat_getD_pack16 f hk (j := 1) (by omega)
  have hb : (f k % 65536).toNat < 65536 := by omega
  simp only [u16, u8]
  rw [Nat.add_zero] at h0
  rw [h0, h1]
  norm_num
  omega

theorem u8_lt (b : Block) (i : Nat) : u8 b i < 256 := (b.getD i 0).isLt

/-- sgn_w is the signed reading of a bit vector. -/
theorem sgn_eq_toInt {w : Nat} (hw : 0 < w) (x : BitVec w) : sgn w x.toNat = x.toInt := by
  obtain ⟨n, rfl⟩ : ∃ n, w = n + 1 := ⟨w - 1, by omega⟩
  have : 2 ^ (n + 1) = 2 * 2 ^ n := by rw [pow_succ, mul_comm]
  simp only [sgn, BitVec.toInt, Nat.add_sub_cancel, this]
  split <;> split <;> first | rfl | omega

end Sys2Proof.Machine
end

