-- ==== Sys2Proof/Laws/Ops.lean ====
section
/-! SUPPORT. One spec lemma for each operand form, and everything an instruction and a step can do, said
once. -/

namespace Sys2Proof.Machine

/-- All that the end of an instruction can be. -/
theorem finish_eq_next {c : Config} {s t : State} {h : Handler} {r : Except FaultReport Memory}
    (e : s.finish c h r = .next t) :
    (∃ m, r = .ok m ∧ t = { s with mem := m, ip := s.ip + c.lengthOf h }) ∨
    (∃ f, r = .error f ∧ t = s.takeFault f) := by
  cases r with
  | ok m => exact .inl ⟨m, rfl, (Host.Outcome.next.inj e).symm⟩
  | error f => exact .inr ⟨f, rfl, (Host.Outcome.next.inj e).symm⟩

theorem finish_is_next (c : Config) (s : State) (h : Handler) (r : Except FaultReport Memory) :
    ∃ t, s.finish c h r = .next t := by
  cases r <;> exact ⟨_, rfl⟩

/-- Two source blocks, nothing fails. -/
theorem twoBlocks_ok {c : Config} {h : Handler} {f : Block → Block → Except FaultReport Block}
    {o1 o2 o3 : Byte} {s : State} {r : Block} (h2 : c.blockFits o2 = true) (h3 : c.blockFits o3 = true)
    (hf : f (s.mem.bytes (c.blockOffset o2) 32) (s.mem.bytes (c.blockOffset o3) 32) = .ok r)
    (h1 : c.blockFits o1 = true) :
    twoBlocks c h f o1 o2 o3 s =
      .next { s with mem := s.mem.writeBytes (c.blockOffset o1) (r.take 32), ip := s.ip + c.lengthOf h } := by
  simp only [twoBlocks, readBlock_of_fits h2, readBlock_of_fits h3, bind, Except.bind, hf, writeBlock_of_fits h1]
  rfl

/-- The read of o2 is the first check (R175). -/
theorem twoBlocks_o2_faults {c : Config} {h : Handler} {f : Block → Block → Except FaultReport Block}
    {o1 o2 o3 : Byte} {s : State} (h2 : c.blockFits o2 = false) :
    twoBlocks c h f o1 o2 o3 s = .next (s.takeFault { cause := .outOfRange, info := c.blockOffset o2 }) := by
  simp only [twoBlocks, readBlock_of_not_fits h2]; rfl

/-- The read of o3 is the second check (R175). -/
theorem twoBlocks_o3_faults {c : Config} {h : Handler} {f : Block → Block → Except FaultReport Block}
    {o1 o2 o3 : Byte} {s : State} (h2 : c.blockFits o2 = true) (h3 : c.blockFits o3 = false) :
    twoBlocks c h f o1 o2 o3 s = .next (s.takeFault { cause := .outOfRange, info := c.blockOffset o3 }) := by
  simp only [twoBlocks, readBlock_of_fits h2, readBlock_of_not_fits h3]; rfl

/-- The instruction's own check is the third (R175). -/
theorem twoBlocks_own_fault {c : Config} {h : Handler} {f : Block → Block → Except FaultReport Block}
    {o1 o2 o3 : Byte} {s : State} {x : FaultReport} (h2 : c.blockFits o2 = true) (h3 : c.blockFits o3 = true)
    (hf : f (s.mem.bytes (c.blockOffset o2) 32) (s.mem.bytes (c.blockOffset o3) 32) = .error x) :
    twoBlocks c h f o1 o2 o3 s = .next (s.takeFault x) := by
  simp only [twoBlocks, readBlock_of_fits h2, readBlock_of_fits h3, bind, Except.bind, hf]; rfl

/-- The write of o1 is the last check (R175). -/
theorem twoBlocks_o1_faults {c : Config} {h : Handler} {f : Block → Block → Except FaultReport Block}
    {o1 o2 o3 : Byte} {s : State} {r : Block} (h2 : c.blockFits o2 = true) (h3 : c.blockFits o3 = true)
    (hf : f (s.mem.bytes (c.blockOffset o2) 32) (s.mem.bytes (c.blockOffset o3) 32) = .ok r)
    (h1 : c.blockFits o1 = false) :
    twoBlocks c h f o1 o2 o3 s = .next (s.takeFault { cause := .outOfRange, info := c.blockOffset o1 }) := by
  simp only [twoBlocks, readBlock_of_fits h2, readBlock_of_fits h3, bind, Except.bind, hf, writeBlock_of_not_fits h1]
  rfl

/-- A source block and a count, with the default role of o3 (R110). -/
theorem blockAndCount_ok {c : Config} {h : Handler} {f : Block → Nat → Block} {o1 o2 o3 : Byte} {s : State}
    (hc : c.shiftCountOperand = .o3) (h2 : c.blockFits o2 = true) (h1 : c.blockFits o1 = true) :
    blockAndCount c h f o1 o2 o3 s =
      .next { s with
        mem := s.mem.writeBytes (c.blockOffset o1) ((f (s.mem.bytes (c.blockOffset o2) 32) o3.toNat).take 32)
        ip := s.ip + c.lengthOf h } := by
  simp only [blockAndCount, hc, SourceOperand.split, readBlock_of_fits h2, bind, Except.bind, writeBlock_of_fits h1]
  rfl

theorem blockAndCount_o2_faults {c : Config} {h : Handler} {f : Block → Nat → Block} {o1 o2 o3 : Byte} {s : State}
    (hc : c.shiftCountOperand = .o3) (h2 : c.blockFits o2 = false) :
    blockAndCount c h f o1 o2 o3 s = .next (s.takeFault { cause := .outOfRange, info := c.blockOffset o2 }) := by
  simp only [blockAndCount, hc, SourceOperand.split, readBlock_of_not_fits h2]; rfl

theorem blockAndCount_o1_faults {c : Config} {h : Handler} {f : Block → Nat → Block} {o1 o2 o3 : Byte} {s : State}
    (hc : c.shiftCountOperand = .o3) (h2 : c.blockFits o2 = true) (h1 : c.blockFits o1 = false) :
    blockAndCount c h f o1 o2 o3 s = .next (s.takeFault { cause := .outOfRange, info := c.blockOffset o1 }) := by
  simp only [blockAndCount, hc, SourceOperand.split, readBlock_of_fits h2, bind, Except.bind,
    writeBlock_of_not_fits h1]
  rfl

/-- An immediate to a block. -/
theorem immediate_ok {c : Config} {h : Handler} {o1 : Byte} {imm : Block} {s : State} (h1 : c.blockFits o1 = true) :
    immediate c h o1 imm s =
      .next { s with mem := s.mem.writeBytes (c.blockOffset o1) (imm.take 32), ip := s.ip + c.lengthOf h } := by
  simp only [immediate, writeBlock_of_fits h1]; rfl

theorem immediate_o1_faults {c : Config} {h : Handler} {o1 : Byte} {imm : Block} {s : State}
    (h1 : c.blockFits o1 = false) :
    immediate c h o1 imm s = .next (s.takeFault { cause := .outOfRange, info := c.blockOffset o1 }) := by
  simp only [immediate, writeBlock_of_not_fits h1]; rfl

/-- What an instruction whose destination block is `o1` and whose handler is `h` can end in: a fault with a
cause, no effect but on ip, or one write of at most 32 bytes at the destination block. -/
def Ends (c : Config) (o1 : Byte) (h : Handler) (s t : State) : Prop :=
  (∃ r, r.cause ≠ .none ∧ t = s.takeFault r) ∨
  t = { s with ip := s.ip + c.lengthOf h } ∨
  (∃ data, c.blockFits o1 = true ∧ data.length ≤ 32 ∧
    t = { s with mem := s.mem.writeBytes (c.blockOffset o1) data, ip := s.ip + c.lengthOf h })

theorem readBlock_error {c : Config} {m : Memory} {i : Byte} {x : FaultReport} (h : m.readBlock c i = .error x) :
    x.cause ≠ .none := by
  cases hf : c.blockFits i
  · rw [readBlock_of_not_fits hf] at h; cases h; simp
  · rw [readBlock_of_fits hf] at h; cases h

theorem writeBlock_error {c : Config} {m : Memory} {i : Byte} {d : Block} {x : FaultReport}
    (h : m.writeBlock c i d = .error x) : x.cause ≠ .none := by
  cases hf : c.blockFits i
  · rw [writeBlock_of_not_fits hf] at h; cases h; simp
  · rw [writeBlock_of_fits hf] at h; cases h

/-- A write of the destination as the last action, or a fault. -/
theorem ends_of_write {c : Config} {o1 : Byte} {h : Handler} {s t : State} {data : Block}
    (e : s.finish c h (s.mem.writeBlock c o1 data) = .next t) : Ends c o1 h s t := by
  rcases finish_eq_next e with ⟨m, hm, rfl⟩ | ⟨f, hf, rfl⟩
  · obtain ⟨hfit, rfl⟩ := writeBlock_ok hm
    exact .inr (.inr ⟨_, hfit, by simp, rfl⟩)
  · exact .inl ⟨f, writeBlock_error hf, rfl⟩

theorem ends_twoBlocks {c : Config} {h : Handler} {f : Block → Block → Except FaultReport Block}
    {o1 o2 o3 : Byte} {s t : State} (hf : ∀ x y e, f x y = .error e → e.cause ≠ .none)
    (e : twoBlocks c h f o1 o2 o3 s = .next t) : Ends c o1 h s t := by
  unfold twoBlocks at e
  cases h2 : s.mem.readBlock c o2 with
  | error x => rw [h2] at e; exact .inl ⟨x, readBlock_error h2, (Host.Outcome.next.inj e).symm⟩
  | ok x2 =>
    cases h3 : s.mem.readBlock c o3 with
    | error x => rw [h2, h3] at e; exact .inl ⟨x, readBlock_error h3, (Host.Outcome.next.inj e).symm⟩
    | ok x3 =>
      cases hr : f x2 x3 with
      | error x =>
        simp only [h2, h3, bind, Except.bind, hr] at e
        exact .inl ⟨x, hf _ _ _ hr, (Host.Outcome.next.inj e).symm⟩
      | ok r =>
        simp only [h2, h3, bind, Except.bind, hr] at e
        exact ends_of_write e

theorem ends_blockAndCount {c : Config} {h : Handler} {f : Block → Nat → Block} {o1 o2 o3 : Byte} {s t : State}
    (e : blockAndCount c h f o1 o2 o3 s = .next t) : Ends c o1 h s t := by
  unfold blockAndCount at e
  simp only at e
  cases h2 : s.mem.readBlock c (SourceOperand.split c.shiftCountOperand o2 o3).2 with
  | error x => rw [h2] at e; exact .inl ⟨x, readBlock_error h2, (Host.Outcome.next.inj e).symm⟩
  | ok x2 =>
    simp only [h2, bind, Except.bind] at e
    exact ends_of_write e

theorem permuteChecked_error {o : LaneOrder} {x y : Block} {e : FaultReport} (h : permuteChecked o x y = .error e) :
    e.cause ≠ .none := by
  unfold permuteChecked at h
  split at h <;> cases h
  simp

/-- Every instruction answers a next state, under every configuration (R85). -/
theorem execIn_is_next (c : Config) (i : Instr) (s : State) : ∃ t, execIn c i s = .next t := by
  cases i <;> first | exact finish_is_next _ _ _ _ | exact ⟨_, rfl⟩

theorem exec_is_next (i : Instr) (s : State) : ∃ t, exec i s = .next t := by
  obtain ⟨t, ht⟩ := execIn_is_next config i s
  exact ⟨t, by cases i <;> exact ht⟩

/-- An inert handler has no effect but on ip (R150). -/
theorem execIn_inert {c : Config} {i : Instr} {s : State} {h : Handler} (hh : i.handler = some h)
    (hi : h.inert = true) : execIn c i s = .next { s with ip := s.ip + c.lengthOf h } := by
  cases i <;> cases hh <;> first | rfl | cases hi

/-- EVERYTHING AN INSTRUCTION CAN DO, under every configuration. -/
theorem execIn_eq_next {c : Config} {i : Instr} {s t : State} (e : execIn c i s = .next t) :
    (i = .halt ∧ t = s.halt) ∨ ∃ h, i.handler = some h ∧ Ends c (i.operands.headD 0) h s t := by
  cases i
  case halt => exact .inl ⟨rfl, (Host.Outcome.next.inj e).symm⟩
  case vloadi => exact .inr ⟨_, rfl, ends_of_write e⟩
  case vsrld => exact .inr ⟨_, rfl, ends_blockAndCount e⟩
  case vslld => exact .inr ⟨_, rfl, ends_blockAndCount e⟩
  case vpermd => exact .inr ⟨_, rfl, ends_twoBlocks (fun _ _ _ h => permuteChecked_error h) e⟩
  all_goals first
    | exact .inr ⟨_, rfl, ends_twoBlocks (by rintro _ _ _ ⟨⟩) e⟩
    | exact .inr ⟨_, rfl, .inr (.inl (Host.Outcome.next.inj e).symm)⟩

theorem exec_eq_next {i : Instr} {s t : State} (e : exec i s = .next t) :
    (i = .halt ∧ t = s.halt) ∨ ∃ h, i.handler = some h ∧ Ends config (i.operands.headD 0) h s t :=
  execIn_eq_next (by cases i <;> exact e)

/-! Fetching. -/

theorem decodeRow_ok {row : OpRow} {l rest : List Byte} {i : Instr} (h : decodeRow row l = .ok i rest) :
    l.length = row.count + row.handler.immBytes + rest.length ∧
    i = row.handler.instr ((l.take row.count).getD 0 0) ((l.take row.count).getD 1 0) ((l.take row.count).getD 2 0)
      ((l.drop row.count).take row.handler.immBytes) := by
  unfold decodeRow at h
  split_ifs at h with h1 h2
  obtain ⟨rfl, rfl⟩ := DecodeResult.ok.inj h
  rw [List.length_drop] at h2
  refine ⟨?_, rfl⟩
  rw [List.length_drop]
  omega

theorem Handler.handler_instr (h : Handler) (a b d : Byte) (imm : Block) :
    (Handler.instr h a b d imm).handler = some h := by cases h <;> rfl

/-- The default table's rows give each handler its count. -/
theorem rowOf_count {op : Byte} {row : OpRow} (h : config.rowOf op = some row) :
    row.count = config.countOf row.handler := by
  have key : ∀ r ∈ config.opmap, r.count = config.countOf r.handler := by decide
  exact key row (List.mem_of_getElem? h)

/-- A decoded instruction has taken exactly its length from the stream (R71). -/
theorem decode_ok_length {l rest : List Byte} {i : Instr} (h : decode l = .ok i rest) :
    (i = .halt ∧ l.length = 1 + rest.length) ∨
    ∃ hd, i.handler = some hd ∧ l.length = config.lengthOf hd + rest.length := by
  unfold decode at h
  split at h
  · cases h
  · rename_i op tl
    split_ifs at h with h0
    · obtain ⟨rfl, rfl⟩ := DecodeResult.ok.inj h
      exact .inl ⟨rfl, by simp [Nat.add_comm]⟩
    · split at h
      · cases h
      · rename_i row hr
        obtain ⟨hl, rfl⟩ := decodeRow_ok h
        refine .inr ⟨_, Handler.handler_instr _ _ _ _ _, ?_⟩
        rw [List.length_cons, hl, rowOf_count hr, Config.lengthOf]
        omega

@[simp] theorem length_stream (s : State) (c : Config) :
    (s.stream c).length = min maxInstrBytes (c.memSize - s.ip) := by simp [State.stream]

theorem fetch_error {c : Config} {s : State} {r : FaultReport} (h : s.fetch c = .error r) : r.cause ≠ .none := by
  unfold State.fetch at h
  split at h <;> cases h <;> simp

/-- A fetched instruction lies wholly inside MEM. -/
theorem fetch_ok_length {s : State} {i : Instr} (h : s.fetch = .ok i) :
    s.ip < config.memSize ∧ ∀ hd, i.handler = some hd → s.ip + config.lengthOf hd ≤ config.memSize := by
  unfold State.fetch at h
  split at h <;> cases h
  rename_i rest hd
  have hl := decode_ok_length hd
  rw [length_stream] at hl
  rcases hl with ⟨rfl, hl⟩ | ⟨hd', he, hl⟩
  · refine ⟨?_, fun hd h => by cases h⟩
    omega
  · have : 1 ≤ config.lengthOf hd' := by rw [Config.lengthOf]; omega
    refine ⟨by omega, fun hd h => ?_⟩
    rw [he] at h
    cases h
    omega

theorem step_of_not_running {s : State} (h : s.status ≠ .running) : step s = .fault (.notRunning s.status) := by
  simp [step, stepWith, h]

theorem step_of_fetch_ok {s : State} {i : Instr} (h : s.status = .running) (hf : s.fetch = .ok i) :
    step s = exec i s := by
  simp [step, stepWith, h, hf]

theorem step_of_fetch_error {s : State} {r : FaultReport} (h : s.status = .running) (hf : s.fetch = .error r) :
    step s = .next (s.takeFault r) := by
  simp [step, stepWith, h, hf]

/-- EVERYTHING A STEP CAN DO: it runs, and it takes a fetch fault or runs the fetched instruction. -/
theorem step_eq_next {s t : State} (h : step s = .next t) :
    s.status = .running ∧
    ((∃ r, s.fetch = .error r ∧ r.cause ≠ .none ∧ t = s.takeFault r) ∨ ∃ i, s.fetch = .ok i ∧ exec i s = .next t) := by
  by_cases hr : s.status = .running
  · refine ⟨hr, ?_⟩
    cases hf : s.fetch with
    | error r =>
      rw [step_of_fetch_error hr hf] at h
      exact .inl ⟨r, rfl, fetch_error hf, (Host.Outcome.next.inj h).symm⟩
    | ok i => exact .inr ⟨i, rfl, (step_of_fetch_ok hr hf).symm.trans h⟩
  · rw [step_of_not_running hr] at h
    cases h

/-- EVERYTHING A STEP CAN DO, under every configuration. -/
theorem stepIn_eq_next {c : Config} {s t : State} (h : stepIn c s = .next t) :
    s.status = .running ∧
    ((∃ r, s.fetch c = .error r ∧ r.cause ≠ .none ∧ t = s.takeFault r) ∨
      ∃ i, s.fetch c = .ok i ∧ execIn c i s = .next t) := by
  unfold stepIn stepWith at h
  split_ifs at h with hr
  refine ⟨hr, ?_⟩
  cases hf : s.fetch c with
  | error r => rw [hf] at h; exact .inl ⟨r, rfl, fetch_error hf, (Host.Outcome.next.inj h).symm⟩
  | ok i => rw [hf] at h; exact .inr ⟨i, rfl, h⟩

/-- While RUNNING a step is total, under every configuration (R85). -/
theorem stepIn_is_next (c : Config) {s : State} (hr : s.status = .running) : ∃ t, stepIn c s = .next t := by
  unfold stepIn stepWith
  rw [if_pos hr]
  cases s.fetch c with
  | error r => exact ⟨_, rfl⟩
  | ok i => exact execIn_is_next c i s

end Sys2Proof.Machine
end

