-- ==== Sys2Proof/Laws/PerInstr.lean ====
section
/-! SUPPORT. Families of statements about each instruction as syntax. -/

namespace Sys2Proof.Laws.Rebuilt

/-- The handler of an instruction makes the instruction again from its operand bytes and its immediate. -/
def Statement (i : Instr) : Prop :=
  ∀ h, i.handler = some h →
    h.instr (i.operands.getD 0 0) (i.operands.getD 1 0) (i.operands.getD 2 0) i.imm = i

theorem vmaddbw (o1 o2 o3 : Byte) : Statement (.vmaddbw o1 o2 o3) := by rintro _ ⟨⟩; rfl
theorem vmaddwd (o1 o2 o3 : Byte) : Statement (.vmaddwd o1 o2 o3) := by rintro _ ⟨⟩; rfl
theorem vxor (o1 o2 o3 : Byte) : Statement (.vxor o1 o2 o3) := by rintro _ ⟨⟩; rfl
theorem vor (o1 o2 o3 : Byte) : Statement (.vor o1 o2 o3) := by rintro _ ⟨⟩; rfl
theorem vand (o1 o2 o3 : Byte) : Statement (.vand o1 o2 o3) := by rintro _ ⟨⟩; rfl
theorem vxorc (o1 o2 o3 : Byte) : Statement (.vxorc o1 o2 o3) := by rintro _ ⟨⟩; rfl
theorem vaddwu (o1 o2 o3 : Byte) : Statement (.vaddwu o1 o2 o3) := by rintro _ ⟨⟩; rfl
theorem vaddb (o1 o2 o3 : Byte) : Statement (.vaddb o1 o2 o3) := by rintro _ ⟨⟩; rfl
theorem vsubb (o1 o2 o3 : Byte) : Statement (.vsubb o1 o2 o3) := by rintro _ ⟨⟩; rfl
theorem vaddw (o1 o2 o3 : Byte) : Statement (.vaddw o1 o2 o3) := by rintro _ ⟨⟩; rfl
theorem vsubw (o1 o2 o3 : Byte) : Statement (.vsubw o1 o2 o3) := by rintro _ ⟨⟩; rfl
theorem vaddd (o1 o2 o3 : Byte) : Statement (.vaddd o1 o2 o3) := by rintro _ ⟨⟩; rfl
theorem vsubd (o1 o2 o3 : Byte) : Statement (.vsubd o1 o2 o3) := by rintro _ ⟨⟩; rfl
theorem vaddq (o1 o2 o3 : Byte) : Statement (.vaddq o1 o2 o3) := by rintro _ ⟨⟩; rfl
theorem vsubq (o1 o2 o3 : Byte) : Statement (.vsubq o1 o2 o3) := by rintro _ ⟨⟩; rfl
theorem vmullm (o1 o2 o3 : Byte) : Statement (.vmullm o1 o2 o3) := by rintro _ ⟨⟩; rfl
theorem vmov (o1 o2 : Byte) : Statement (.vmov o1 o2) := by rintro _ ⟨⟩; rfl
theorem vloadi (o1 : Byte) (imm : Block) : Statement (.vloadi o1 imm) := by rintro _ ⟨⟩; rfl
theorem vsrld (o1 o2 o3 : Byte) : Statement (.vsrld o1 o2 o3) := by rintro _ ⟨⟩; rfl
theorem vslld (o1 o2 o3 : Byte) : Statement (.vslld o1 o2 o3) := by rintro _ ⟨⟩; rfl
theorem vshufb (o1 o2 o3 : Byte) : Statement (.vshufb o1 o2 o3) := by rintro _ ⟨⟩; rfl
theorem vpermd (o1 o2 o3 : Byte) : Statement (.vpermd o1 o2 o3) := by rintro _ ⟨⟩; rfl
theorem vcmpeqb (o1 o2 o3 : Byte) : Statement (.vcmpeqb o1 o2 o3) := by rintro _ ⟨⟩; rfl
theorem nop : Statement (.nop) := by rintro _ ⟨⟩; rfl
theorem halt : Statement (.halt) := by rintro _ ⟨⟩

end Sys2Proof.Laws.Rebuilt
end

