-- ==== Sys2Proof/Laws/Views.lean ====
section
/-! SUPPORT. The registers and lanes of a state (Safety.lean) beside the lane views the meanings compute
with, what they are after a block was written, and the head of the fetched stream. -/

namespace Sys2Proof.Machine

/-! Reading a vector register. -/

theorem u8_bytes (s : State) (o : Byte) {i : Nat} (h : i < 32) :
    u8 (s.mem.bytes (config.blockOffset o) 32) i = (s.reg o i).toNat := by
  rw [u8, Memory.getD_bytes _ _ _ _ h]; rfl

theorem word_toNat (s : State) (o : Byte) (k : Nat) :
    (s.word o k).toNat = (s.reg o (2 * k)).toNat + 256 * (s.reg o (2 * k + 1)).toNat := by
  have h0 := (s.reg o (2 * k)).isLt
  simp only [State.word, BitVec.toNat_append]
  rw [Nat.shiftLeft_eq, ← Nat.mul_comm, ← Nat.two_pow_add_eq_or_of_lt h0]
  omega

theorem dword_toNat (s : State) (o : Byte) (k : Nat) :
    (s.dword o k).toNat = (s.reg o (4 * k)).toNat + 256 * (s.reg o (4 * k + 1)).toNat
      + 65536 * (s.reg o (4 * k + 2)).toNat + 16777216 * (s.reg o (4 * k + 3)).toNat := by
  have h0 := (s.reg o (4 * k)).isLt
  have h1 := (s.reg o (4 * k + 1)).isLt
  have h2 := (s.reg o (4 * k + 2)).isLt
  simp only [State.dword, BitVec.toNat_append, Nat.shiftLeft_eq]
  rw [← Nat.mul_comm, ← Nat.two_pow_add_eq_or_of_lt h0, Nat.mul_comm (_ ||| _), ← Nat.two_pow_add_eq_or_of_lt h1,
    Nat.mul_comm (BitVec.toNat (s.reg o (4 * k + 3))), ← Nat.two_pow_add_eq_or_of_lt h2]
  omega

theorem u16_bytes (s : State) (o : Byte) {k : Nat} (h : k < 16) :
    u16 .little (s.mem.bytes (config.blockOffset o) 32) k = (s.word o k).toNat := by
  rw [word_toNat, u16, u8_bytes _ _ (by omega), u8_bytes _ _ (by omega)]

theorem u32_bytes (s : State) (o : Byte) {k : Nat} (h : k < 8) :
    u32 .little (s.mem.bytes (config.blockOffset o) 32) k = (s.dword o k).toNat := by
  rw [dword_toNat, u32, u8_bytes _ _ (by omega), u8_bytes _ _ (by omega), u8_bytes _ _ (by omega),
    u8_bytes _ _ (by omega)]

/-! A vector register after a block was written to it. -/

/-- The state after block `o1` was written and ip moved. -/
def State.wrote (s : State) (o1 : Byte) (data : Block) (len : Nat) : State :=
  { s with mem := s.mem.writeBytes (config.blockOffset o1) (data.take 32), ip := s.ip + len }

theorem reg_wrote (s : State) (o1 : Byte) {data : Block} (len : Nat) (hd : data.length = 32) {i : Nat} (h : i < 32) :
    (s.wrote o1 data len).reg o1 i = data.getD i 0 := by
  simp only [State.wrote, State.reg]
  rw [List.take_of_length_le (by omega), Memory.read_writeBytes_inside _ _ _ _ (by omega)]

theorem byte_wrote (s : State) (o1 : Byte) (f : Nat → Int) (len : Nat) {i : Nat} (h : i < 32) :
    ((s.wrote o1 (pack8 f) len).reg o1 i).toNat = (f i % 256).toNat := by
  rw [reg_wrote _ _ _ (by simp) h, toNat_getD_pack8 f h]

theorem word_wrote (s : State) (o1 : Byte) (f : Nat → Int) (len : Nat) {k : Nat} (h : k < 16) :
    ((s.wrote o1 (pack16 .little f) len).word o1 k).toNat = (f k % 65536).toNat := by
  rw [← u16_pack16 f h, word_toNat, u16, u8, u8, reg_wrote _ _ _ (by simp) (by omega),
    reg_wrote _ _ _ (by simp) (by omega)]

theorem dword_wrote (s : State) (o1 : Byte) (f : Nat → Int) (len : Nat) {k : Nat} (h : k < 8) :
    ((s.wrote o1 (pack32 .little f) len).dword o1 k).toNat = (f k % 4294967296).toNat := by
  rw [← u32_pack32 f h, dword_toNat, u32, u8, u8, u8, u8]
  rw [reg_wrote _ _ _ (by simp) (by omega), reg_wrote _ _ _ (by simp) (by omega),
    reg_wrote _ _ _ (by simp) (by omega), reg_wrote _ _ _ (by simp) (by omega)]

theorem wrote_frame (s : State) (o1 : Byte) (data : Block) (len : Nat) :
    WritesOnlyBlock s (s.wrote o1 data len) o1 len := by
  refine ⟨rfl, ⟨rfl, rfl, rfl, rfl⟩, fun a ha => ?_⟩
  apply Memory.read_writeBytes_outside
  have : (data.take 32).length ≤ 32 := by simp
  omega

/-! The table's rows and the fetched stream. -/

theorem rowOf_none {op : Byte} (h : 24 ≤ op.toNat) : config.rowOf op = none :=
  List.getElem?_eq_none h

/-- What a row of the default table says of its opcode byte. -/
theorem rowOf_cases {op : Byte} {row : OpRow} (h : config.rowOf op = some row) :
    op = config.opcodeOf row.handler ∧ row.count = row.handler.arity := by
  have key : ∀ n : Nat, n < 24 → ∀ r, config.opmap[n]? = some r →
      BitVec.ofNat 8 n = config.opcodeOf r.handler ∧ r.count = r.handler.arity := by
    intro n hn
    interval_cases n <;> (rintro r ⟨⟩; decide)
  have hlt : op.toNat < 24 := by
    by_contra hc
    rw [rowOf_none (by omega)] at h
    cases h
  simpa using key op.toNat hlt row h

theorem stream_nil {s : State} (h : config.memSize ≤ s.ip) : s.stream = [] := by
  apply List.eq_nil_of_length_eq_zero
  rw [length_stream]; omega

theorem stream_cons {s : State} (h : s.ip < config.memSize) :
    ∃ tl, s.stream = s.opcodeByte :: tl ∧ tl.length = min 33 (config.memSize - s.ip - 1) := by
  have hpos : min maxInstrBytes (config.memSize - s.ip) = min 33 (config.memSize - s.ip - 1) + 1 := by
    simp only [maxInstrBytes]; omega
  refine ⟨_, by simp only [State.stream, hpos, Memory.bytes, List.range_succ_eq_map, List.map_cons]; rfl, by simp⟩

end Sys2Proof.Machine
end

