-- ==== Sys2Proof/Tests/Slice0.lean ====
section
/-! SUPPORT. The model's own tests. Expected values are the spec's: the encodings of R101 to R161, the
vectors V1 to V23 and the programs P1 to P5 of 95_test_vectors.md (each theorem names its source), or hand
computation from the rule named. -/

namespace Sys2Proof.Tests

open Sys2Proof Sys2Proof.Machine

/-! Theorems are checked one after another: a thread for each exhausts the sandbox's memory limit. -/
set_option Elab.async false

/-- A running state over an image that is zero but for the segments, which stand at rising offsets. -/
def runningAt (ip : Nat) (segs : List (Nat × List Byte)) : State :=
  { State.reset with
    status := .running
    ip := ip
    mem := { loaded := true, cells := (segs.map fun x => listCells true x.1 x.2).flatten } }

/-- The next state, if there is one. -/
def nextOf (r : Result) : Option State :=
  match r with
  | .next t => some t
  | .fault _ => none
  | .refused _ => none

/-- A list `n` times over. -/
def rep (n : Nat) (l : List Byte) : List Byte := (List.replicate n l).flatten

/-- One step of an instruction at 0 with v0 and v1 given: block v2 and ip afterwards (the convention of
95_test_vectors.md part 2). -/
def runAt0 (code v0 v1 : List Byte) : Option (List Byte × Nat) :=
  (nextOf (step (runningAt 0 [(0, code), (0x800, v0), (0x820, v1)]))).map fun t => (t.mem.bytes 0x840 32, t.ip)

/-- The fault registers and ip after one step. -/
def faultOf (s : State) : Option (Status × FaultCause × Nat × Nat × Nat) :=
  (nextOf (step s)).map fun t => (t.status, t.faultCause, t.faultPc, t.faultInfo, t.ip)

/-! Decoding: one word of every row, written from the encoding its rule prints. -/

theorem test_decode_vmaddbw : decode [0x00, 0xA5, 0xFF, 0x3C, 0x17] = .ok (.vmaddbw 0xA5 0xFF 0x3C) [0x17] := by decide

theorem test_decode_vmaddwd : decode [0x01, 0xA5, 0xFF, 0x3C, 0x17] = .ok (.vmaddwd 0xA5 0xFF 0x3C) [0x17] := by decide

theorem test_decode_vxor : decode [0x02, 0xA5, 0xFF, 0x3C, 0x17] = .ok (.vxor 0xA5 0xFF 0x3C) [0x17] := by decide

theorem test_decode_vor : decode [0x03, 0xA5, 0xFF, 0x3C, 0x17] = .ok (.vor 0xA5 0xFF 0x3C) [0x17] := by decide

theorem test_decode_vand : decode [0x04, 0xA5, 0xFF, 0x3C, 0x17] = .ok (.vand 0xA5 0xFF 0x3C) [0x17] := by decide

theorem test_decode_vxorc : decode [0x05, 0xA5, 0xFF, 0x3C, 0x17] = .ok (.vxorc 0xA5 0xFF 0x3C) [0x17] := by decide

theorem test_decode_vaddwu : decode [0x06, 0xA5, 0xFF, 0x3C, 0x17] = .ok (.vaddwu 0xA5 0xFF 0x3C) [0x17] := by decide

theorem test_decode_vaddb : decode [0x07, 0xA5, 0xFF, 0x3C, 0x17] = .ok (.vaddb 0xA5 0xFF 0x3C) [0x17] := by decide

theorem test_decode_vsubb : decode [0x08, 0xA5, 0xFF, 0x3C, 0x17] = .ok (.vsubb 0xA5 0xFF 0x3C) [0x17] := by decide

theorem test_decode_vaddw : decode [0x09, 0xA5, 0xFF, 0x3C, 0x17] = .ok (.vaddw 0xA5 0xFF 0x3C) [0x17] := by decide

theorem test_decode_vsubw : decode [0x0A, 0xA5, 0xFF, 0x3C, 0x17] = .ok (.vsubw 0xA5 0xFF 0x3C) [0x17] := by decide

theorem test_decode_vaddd : decode [0x0B, 0xA5, 0xFF, 0x3C, 0x17] = .ok (.vaddd 0xA5 0xFF 0x3C) [0x17] := by decide

theorem test_decode_vsubd : decode [0x0C, 0xA5, 0xFF, 0x3C, 0x17] = .ok (.vsubd 0xA5 0xFF 0x3C) [0x17] := by decide

theorem test_decode_vaddq : decode [0x0D, 0xA5, 0xFF, 0x3C, 0x17] = .ok (.vaddq 0xA5 0xFF 0x3C) [0x17] := by decide

theorem test_decode_vsubq : decode [0x0E, 0xA5, 0xFF, 0x3C, 0x17] = .ok (.vsubq 0xA5 0xFF 0x3C) [0x17] := by decide

theorem test_decode_vmullm : decode [0x0F, 0xA5, 0xFF, 0x3C, 0x17] = .ok (.vmullm 0xA5 0xFF 0x3C) [0x17] := by decide

theorem test_decode_vmov : decode [0x10, 0xA5, 0xFF, 0x17] = .ok (.vmov 0xA5 0xFF) [0x17] := by decide

theorem test_decode_vloadi :
    decode ([0x11, 0x20] ++ rep 16 [0xFF, 0x01] ++ [0x17]) = .ok (.vloadi 0x20 (rep 16 [0xFF, 0x01])) [0x17] := by decide +kernel

theorem test_decode_vsrld : decode [0x12, 0xA5, 0xFF, 0x3C, 0x17] = .ok (.vsrld 0xA5 0xFF 0x3C) [0x17] := by decide

theorem test_decode_vslld : decode [0x13, 0xA5, 0xFF, 0x3C, 0x17] = .ok (.vslld 0xA5 0xFF 0x3C) [0x17] := by decide

theorem test_decode_vshufb : decode [0x14, 0xA5, 0xFF, 0x3C, 0x17] = .ok (.vshufb 0xA5 0xFF 0x3C) [0x17] := by decide

theorem test_decode_vpermd : decode [0x15, 0xA5, 0xFF, 0x3C, 0x17] = .ok (.vpermd 0xA5 0xFF 0x3C) [0x17] := by decide

theorem test_decode_vcmpeqb : decode [0x16, 0xA5, 0xFF, 0x3C, 0x17] = .ok (.vcmpeqb 0xA5 0xFF 0x3C) [0x17] := by decide

theorem test_decode_nop : decode [0x17, 0xFF] = .ok .nop [0xFF] := by decide

theorem test_decode_halt : decode [0xFF, 0x07] = .ok .halt [0x07] := by decide

/-- R69: the bytes next to the table and next to the sentinel. -/
theorem test_decode_illegal :
    decode [0x18, 0, 0, 0] = .illegal 0x18 ∧ decode [0xFE] = .illegal 0xFE := by decide

/-- R175: the opcode byte, the operands and the immediate are missed in this order. -/
theorem test_decode_truncated :
    decode [] = .truncated 0 ∧ decode [0x07, 1, 2] = .truncated 1 ∧ decode [0x10, 1] = .truncated 1 ∧
    decode [0x11] = .truncated 1 ∧ decode [0x11, 1, 2] = .truncated 2 := by decide

/-- The byte after the opcode is bits 15 to 8 of a table word, and so on. -/
theorem test_table_word :
    decodeTableWord 32 0x01000207 = some (.vaddb 2 0 1) ∧ decodeTableWord 24 0x0910 = some (.vmov 9 0) ∧
    decodeTableWord 8 0x07 = some (.vaddb 0 0 0) ∧ decodeTableWord 8 0xFF = some .halt ∧
    decodeTableWord 8 0x18 = none ∧ decodeTableWord 272 (2 ^ 264 + 0x0111) = some (.vloadi 1 (rep 31 [0] ++ [1])) := by
  decide +kernel

/-- The placed instruction is the first a run from reset executes. -/
theorem test_fetch_word_runs :
    nextOf (step (State.reset.withFetchWord 32 0x01000209)) =
      (nextOf (exec (.vaddw 2 0 1) (State.reset.withFetchWord 32 0x01000209))) ∧
    (nextOf (step (State.reset.withFetchWord 8 0xFF))).map (·.status) = some .halted ∧
    (nextOf (step (State.reset.withFetchWord 32 0x15))).map (·.ip) = some 4 := by decide +kernel

/-! Well-formedness: each check refuses an ill-formed term. -/

theorem test_wf_refuses_short_immediate : (Instr.vloadi 0 (rep 31 [0])).wf = false := by decide

theorem test_wf_refuses_long_immediate : (Instr.vloadi 0 (rep 33 [0])).wf = false := by decide

/-- A table that gives VXORC one operand byte (D2). -/
def oneOperandVxorc : Config :=
  { config with opmap := config.opmap.map fun r => if r.handler = .vxorc then { r with count := 1 } else r }

theorem test_wf_refuses_uncounted_operand :
    oneOperandVxorc.wf = true ∧ (Instr.vxorc 1 2 3).wf oneOperandVxorc = false ∧
    (Instr.vxorc 1 0 0).wf oneOperandVxorc = true ∧ (Instr.vxorc 1 2 3).wf = true := by decide +kernel

/-- Under that table VXORC is two bytes long and the next instruction stands behind it. -/
theorem test_configured_count :
    decode [0x05, 9, 0x17] oneOperandVxorc = .ok (.vxorc 9 0 0) [0x17] ∧
    encode (.vxorc 9 0 0) oneOperandVxorc = [0x05, 9] ∧
    (nextOf (stepIn oneOperandVxorc (runningAt 0 [(0, [0x05, 9])]))).map (·.ip) = some 2 := by decide +kernel

/-- R7 and R31: the configuration check refuses each violation. -/
theorem test_config_wf_refuses :
    Config.wf { config with memSize := 0 } = false ∧
    Config.wf { config with inputOff := 0xBE1 } = false ∧
    Config.wf { config with opmap := config.opmap.drop 1 } = false ∧
    Config.wf { config with opmap := { handler := .nop, count := 0 } :: config.opmap.drop 1 } = false ∧
    Config.wf { config with opmap := { handler := .vmaddbw, count := 2 } :: config.opmap.drop 1 } = false ∧
    Config.wf { config with inputOff := 0xBE0 } = true := by decide +kernel

/-! The vectors of 95_test_vectors.md part 2. -/

/-- V1: no carry between lanes. -/
theorem test_vaddb :
    runAt0 [0x07, 2, 0, 1]
      (rep 4 [0x00, 0xFF, 0x01, 0x80, 0x01, 0x20, 0xF0, 0x03])
      (rep 4 [0x00, 0x01, 0x7F, 0x80, 0xFF, 0xF0, 0x10, 0xFE]) =
    some (rep 4 [0x00, 0x00, 0x80, 0x00, 0x00, 0x10, 0x00, 0x01], 4) := by decide +kernel

/-- V2: carry inside a lane, wrap at 2^32. -/
theorem test_vaddd :
    runAt0 [0x0B, 2, 0, 1]
      [0x00, 0x00, 0x00, 0x00, 0xFF, 0xFF, 0xFF, 0xFF, 0x01, 0x00, 0x00, 0x00, 0x00, 0x00, 0x00, 0x80, 0x01, 0x00, 0x00, 0x00, 0x01, 0x00, 0x00, 0x00, 0x01, 0x00, 0x01, 0x00, 0x11, 0x41, 0x52, 0x21]
      [0x00, 0x00, 0x00, 0x00, 0x01, 0x00, 0x00, 0x00, 0xFF, 0xFF, 0xFF, 0xFF, 0x00, 0x00, 0x00, 0x80, 0xFF, 0xFF, 0xFF, 0x7F, 0xFF, 0xFF, 0x00, 0x00, 0xFF, 0x00, 0xFF, 0x00, 0xEF, 0xBE, 0xAD, 0xDE] =
    some ([0x00, 0x00, 0x00, 0x00, 0x00, 0x00, 0x00, 0x00, 0x00, 0x00, 0x00, 0x00, 0x00, 0x00, 0x00, 0x00, 0x00, 0x00, 0x00, 0x80, 0x00, 0x00, 0x01, 0x00, 0x00, 0x01, 0x00, 0x01, 0x00, 0x00, 0x00, 0x00], 4) := by decide +kernel

/-- V3: the byte add on the blocks of V2. -/
theorem test_vaddb_on_dwords :
    runAt0 [0x07, 2, 0, 1]
      [0x00, 0x00, 0x00, 0x00, 0xFF, 0xFF, 0xFF, 0xFF, 0x01, 0x00, 0x00, 0x00, 0x00, 0x00, 0x00, 0x80, 0x01, 0x00, 0x00, 0x00, 0x01, 0x00, 0x00, 0x00, 0x01, 0x00, 0x01, 0x00, 0x11, 0x41, 0x52, 0x21]
      [0x00, 0x00, 0x00, 0x00, 0x01, 0x00, 0x00, 0x00, 0xFF, 0xFF, 0xFF, 0xFF, 0x00, 0x00, 0x00, 0x80, 0xFF, 0xFF, 0xFF, 0x7F, 0xFF, 0xFF, 0x00, 0x00, 0xFF, 0x00, 0xFF, 0x00, 0xEF, 0xBE, 0xAD, 0xDE] =
    some ([0x00, 0x00, 0x00, 0x00, 0x00, 0xFF, 0xFF, 0xFF, 0x00, 0xFF, 0xFF, 0xFF, 0x00, 0x00, 0x00, 0x00, 0x00, 0xFF, 0xFF, 0x7F, 0x00, 0xFF, 0x00, 0x00, 0x00, 0x00, 0x00, 0x00, 0x00, 0xFF, 0xFF, 0xFF], 4) := by decide +kernel

/-- V4. -/
theorem test_vand :
    runAt0 [0x04, 2, 0, 1]
      (rep 8 [0xF0, 0x0F, 0xAA, 0x55])
      [0x00, 0x01, 0x02, 0x03, 0x04, 0x05, 0x06, 0x07, 0x08, 0x09, 0x0A, 0x0B, 0x0C, 0x0D, 0x0E, 0x0F, 0x10, 0x11, 0x12, 0x13, 0x14, 0x15, 0x16, 0x17, 0x18, 0x19, 0x1A, 0x1B, 0x1C, 0x1D, 0x1E, 0x1F] =
    some ([0x00, 0x01, 0x02, 0x01, 0x00, 0x05, 0x02, 0x05, 0x00, 0x09, 0x0A, 0x01, 0x00, 0x0D, 0x0A, 0x05, 0x10, 0x01, 0x02, 0x11, 0x10, 0x05, 0x02, 0x15, 0x10, 0x09, 0x0A, 0x11, 0x10, 0x0D, 0x0A, 0x15], 4) := by decide +kernel

/-- V4. -/
theorem test_vor :
    runAt0 [0x03, 2, 0, 1]
      (rep 8 [0xF0, 0x0F, 0xAA, 0x55])
      [0x00, 0x01, 0x02, 0x03, 0x04, 0x05, 0x06, 0x07, 0x08, 0x09, 0x0A, 0x0B, 0x0C, 0x0D, 0x0E, 0x0F, 0x10, 0x11, 0x12, 0x13, 0x14, 0x15, 0x16, 0x17, 0x18, 0x19, 0x1A, 0x1B, 0x1C, 0x1D, 0x1E, 0x1F] =
    some ([0xF0, 0x0F, 0xAA, 0x57, 0xF4, 0x0F, 0xAE, 0x57, 0xF8, 0x0F, 0xAA, 0x5F, 0xFC, 0x0F, 0xAE, 0x5F, 0xF0, 0x1F, 0xBA, 0x57, 0xF4, 0x1F, 0xBE, 0x57, 0xF8, 0x1F, 0xBA, 0x5F, 0xFC, 0x1F, 0xBE, 0x5F], 4) := by decide +kernel

/-- V5. -/
theorem test_vxor :
    runAt0 [0x02, 2, 0, 1]
      (rep 8 [0xF0, 0x0F, 0xAA, 0x55])
      [0x00, 0x01, 0x02, 0x03, 0x04, 0x05, 0x06, 0x07, 0x08, 0x09, 0x0A, 0x0B, 0x0C, 0x0D, 0x0E, 0x0F, 0x10, 0x11, 0x12, 0x13, 0x14, 0x15, 0x16, 0x17, 0x18, 0x19, 0x1A, 0x1B, 0x1C, 0x1D, 0x1E, 0x1F] =
    some ([0xF0, 0x0E, 0xA8, 0x56, 0xF4, 0x0A, 0xAC, 0x52, 0xF8, 0x06, 0xA0, 0x5E, 0xFC, 0x02, 0xA4, 0x5A, 0xE0, 0x1E, 0xB8, 0x46, 0xE4, 0x1A, 0xBC, 0x42, 0xE8, 0x16, 0xB0, 0x4E, 0xEC, 0x12, 0xB4, 0x4A], 4) := by decide +kernel

/-- V5: o2 = o3 gives 32 zero bytes. -/
theorem test_vxor_of_a_block_with_itself :
    runAt0 [0x02, 2, 1, 1]
      []
      [0x00, 0x01, 0x02, 0x03, 0x04, 0x05, 0x06, 0x07, 0x08, 0x09, 0x0A, 0x0B, 0x0C, 0x0D, 0x0E, 0x0F, 0x10, 0x11, 0x12, 0x13, 0x14, 0x15, 0x16, 0x17, 0x18, 0x19, 0x1A, 0x1B, 0x1C, 0x1D, 0x1E, 0x1F] =
    some (rep 32 [0], 4) := by decide +kernel

/-- V6: 0x01 at bytes 0, 3, ..., 30, never 0xFF. -/
theorem test_vcmpeqb :
    runAt0 [0x16, 2, 0, 1]
      [0x00, 0x02, 0x03, 0x03, 0x05, 0x06, 0x06, 0x08, 0x09, 0x09, 0x0B, 0x0C, 0x0C, 0x0E, 0x0F, 0x0F, 0x11, 0x12, 0x12, 0x14, 0x15, 0x15, 0x17, 0x18, 0x18, 0x1A, 0x1B, 0x1B, 0x1D, 0x1E, 0x1E, 0x20]
      [0x00, 0x01, 0x02, 0x03, 0x04, 0x05, 0x06, 0x07, 0x08, 0x09, 0x0A, 0x0B, 0x0C, 0x0D, 0x0E, 0x0F, 0x10, 0x11, 0x12, 0x13, 0x14, 0x15, 0x16, 0x17, 0x18, 0x19, 0x1A, 0x1B, 0x1C, 0x1D, 0x1E, 0x1F] =
    some (rep 10 [1, 0, 0] ++ [1, 0], 4) := by decide +kernel

/-- V7, count 4. -/
theorem test_vslld :
    runAt0 [0x13, 2, 0, 0x04]
      [0x01, 0x00, 0x00, 0x00, 0x00, 0x00, 0x00, 0x80, 0xFF, 0xFF, 0xFF, 0xFF, 0x78, 0x56, 0x34, 0x12, 0x00, 0x00, 0x00, 0x00, 0xFF, 0xFF, 0x00, 0x00, 0x01, 0x00, 0x00, 0x80, 0x00, 0x00, 0x01, 0x00]
      [] =
    some ([0x10, 0x00, 0x00, 0x00, 0x00, 0x00, 0x00, 0x00, 0xF0, 0xFF, 0xFF, 0xFF, 0x80, 0x67, 0x45, 0x23, 0x00, 0x00, 0x00, 0x00, 0xF0, 0xFF, 0x0F, 0x00, 0x10, 0x00, 0x00, 0x00, 0x00, 0x00, 0x10, 0x00], 4) := by decide +kernel

/-- V9: count 200 raises nothing and gives 0. -/
theorem test_vslld_count_is_no_block :
    runAt0 [0x13, 2, 0, 0xC8]
      [0x01, 0x00, 0x00, 0x00, 0x00, 0x00, 0x00, 0x80, 0xFF, 0xFF, 0xFF, 0xFF, 0x78, 0x56, 0x34, 0x12, 0x00, 0x00, 0x00, 0x00, 0xFF, 0xFF, 0x00, 0x00, 0x01, 0x00, 0x00, 0x80, 0x00, 0x00, 0x01, 0x00]
      [] =
    some (rep 32 [0], 4) := by decide +kernel

/-- V8, count 1: no sign fill. -/
theorem test_vsrld :
    runAt0 [0x12, 2, 0, 0x01]
      [0x01, 0x00, 0x00, 0x00, 0x00, 0x00, 0x00, 0x80, 0xFF, 0xFF, 0xFF, 0xFF, 0x78, 0x56, 0x34, 0x12, 0x00, 0x00, 0x00, 0x00, 0xFF, 0xFF, 0x00, 0x00, 0x01, 0x00, 0x00, 0x80, 0x00, 0x00, 0x01, 0x00]
      [] =
    some ([0x00, 0x00, 0x00, 0x00, 0x00, 0x00, 0x00, 0x40, 0xFF, 0xFF, 0xFF, 0x7F, 0x3C, 0x2B, 0x1A, 0x09, 0x00, 0x00, 0x00, 0x00, 0xFF, 0x7F, 0x00, 0x00, 0x00, 0x00, 0x00, 0x40, 0x00, 0x80, 0x00, 0x00], 4) := by decide +kernel

/-- V8, count 0x20. -/
theorem test_vsrld_by_32 :
    runAt0 [0x12, 2, 0, 0x20]
      [0x01, 0x00, 0x00, 0x00, 0x00, 0x00, 0x00, 0x80, 0xFF, 0xFF, 0xFF, 0xFF, 0x78, 0x56, 0x34, 0x12, 0x00, 0x00, 0x00, 0x00, 0xFF, 0xFF, 0x00, 0x00, 0x01, 0x00, 0x00, 0x80, 0x00, 0x00, 0x01, 0x00]
      [] =
    some (rep 32 [0], 4) := by decide +kernel

/-- V12, with the one wrapping sum. -/
theorem test_vmaddwd :
    runAt0 [0x01, 2, 0, 1]
      [0x01, 0x00, 0x01, 0x00, 0x01, 0x00, 0x01, 0x00, 0x01, 0x00, 0x01, 0x00, 0xFF, 0x7F, 0xFF, 0x7F, 0x00, 0x80, 0x00, 0x80, 0xFF, 0x7F, 0xFF, 0x7F, 0xFD, 0xFF, 0x07, 0x00, 0x05, 0x00, 0x09, 0x00]
      [0x02, 0x00, 0x03, 0x00, 0x04, 0x00, 0x05, 0x00, 0xFF, 0xFF, 0xFF, 0xFF, 0xFF, 0x7F, 0xFF, 0x7F, 0x00, 0x80, 0x00, 0x80, 0x00, 0x80, 0xFF, 0x7F, 0x64, 0x00, 0x9C, 0xFF, 0x00, 0x00, 0x00, 0x00] =
    some ([0x05, 0x00, 0x00, 0x00, 0x09, 0x00, 0x00, 0x00, 0xFE, 0xFF, 0xFF, 0xFF, 0x02, 0x00, 0xFE, 0x7F, 0x00, 0x00, 0x00, 0x80, 0x01, 0x80, 0xFF, 0xFF, 0x18, 0xFC, 0xFF, 0xFF, 0x00, 0x00, 0x00, 0x00], 4) := by decide +kernel

/-- V12: swapped operands give the same block. -/
theorem test_vmaddwd_swapped :
    runAt0 [0x01, 2, 1, 0]
      [0x01, 0x00, 0x01, 0x00, 0x01, 0x00, 0x01, 0x00, 0x01, 0x00, 0x01, 0x00, 0xFF, 0x7F, 0xFF, 0x7F, 0x00, 0x80, 0x00, 0x80, 0xFF, 0x7F, 0xFF, 0x7F, 0xFD, 0xFF, 0x07, 0x00, 0x05, 0x00, 0x09, 0x00]
      [0x02, 0x00, 0x03, 0x00, 0x04, 0x00, 0x05, 0x00, 0xFF, 0xFF, 0xFF, 0xFF, 0xFF, 0x7F, 0xFF, 0x7F, 0x00, 0x80, 0x00, 0x80, 0x00, 0x80, 0xFF, 0x7F, 0x64, 0x00, 0x9C, 0xFF, 0x00, 0x00, 0x00, 0x00] =
    some ([0x05, 0x00, 0x00, 0x00, 0x09, 0x00, 0x00, 0x00, 0xFE, 0xFF, 0xFF, 0xFF, 0x02, 0x00, 0xFE, 0x7F, 0x00, 0x00, 0x00, 0x80, 0x01, 0x80, 0xFF, 0xFF, 0x18, 0xFC, 0xFF, 0xFF, 0x00, 0x00, 0x00, 0x00], 4) := by decide +kernel

/-- V13, with the one wrapping sum. -/
theorem test_vmaddbw :
    runAt0 [0x00, 2, 0, 1]
      [0x01, 0x40, 0x01, 0x01, 0x7F, 0x7F, 0x80, 0x80, 0x7F, 0x80, 0x3F, 0x3F, 0x05, 0x06, 0xFD, 0x07, 0x0A, 0x14, 0x1E, 0x28, 0x32, 0x3C, 0x46, 0x50, 0x08, 0x07, 0x06, 0x05, 0x04, 0x03, 0x02, 0x01]
      [0x02, 0x03, 0xFF, 0xFF, 0x7F, 0x7F, 0x80, 0x80, 0x80, 0x7F, 0x40, 0x01, 0x00, 0x00, 0x64, 0x9C, 0x01, 0x02, 0x03, 0x04, 0x05, 0x06, 0x07, 0x08, 0xF8, 0xF9, 0xFA, 0xFB, 0xFC, 0xFD, 0xFE, 0xFF] =
    some ([0xC2, 0x00, 0xFE, 0xFF, 0x02, 0x7E, 0x00, 0x80, 0x00, 0x81, 0xFF, 0x0F, 0x00, 0x00, 0x18, 0xFC, 0x32, 0x00, 0xFA, 0x00, 0x62, 0x02, 0x6A, 0x04, 0x8F, 0xFF, 0xC3, 0xFF, 0xE7, 0xFF, 0xFB, 0xFF], 4) := by decide +kernel

/-- V16. -/
theorem test_vpermd_sentinel :
    runAt0 [0x15, 2, 0, 1]
      [0xFF, 0xFF, 0xFF, 0xFF, 0x00, 0x00, 0x00, 0x00, 0xFF, 0xFF, 0xFF, 0xFF, 0x07, 0x00, 0x00, 0x00, 0x07, 0x00, 0x00, 0x00, 0xFF, 0xFF, 0xFF, 0xFF, 0x01, 0x00, 0x00, 0x00, 0xFF, 0xFF, 0xFF, 0xFF]
      [0x10, 0x11, 0x11, 0x11, 0x11, 0x11, 0x11, 0x11, 0x12, 0x11, 0x11, 0x11, 0x13, 0x11, 0x11, 0x11, 0x14, 0x11, 0x11, 0x11, 0x15, 0x11, 0x11, 0x11, 0x16, 0x11, 0x11, 0x11, 0x17, 0x11, 0x11, 0x11] =
    some ([0x00, 0x00, 0x00, 0x00, 0x10, 0x11, 0x11, 0x11, 0x00, 0x00, 0x00, 0x00, 0x17, 0x11, 0x11, 0x11, 0x17, 0x11, 0x11, 0x11, 0x00, 0x00, 0x00, 0x00, 0x11, 0x11, 0x11, 0x11, 0x00, 0x00, 0x00, 0x00], 4) := by decide +kernel

/-- V18, mode low. -/
theorem test_vshufb_low :
    runAt0 [0x14, 2, 0, 1]
      [0xC0, 0xC1, 0xC2, 0xC3, 0xC4, 0xC5, 0xC6, 0xC7, 0xC8, 0xC9, 0xCA, 0xCB, 0xCC, 0xCD, 0xCE, 0xCF, 0xD0, 0xD1, 0xD2, 0xD3, 0xD4, 0xD5, 0xD6, 0xD7, 0xD8, 0xD9, 0xDA, 0xDB, 0xDC, 0xDD, 0xDE, 0xDF]
      [0x0F, 0x0E, 0x0D, 0x0C, 0x0B, 0x0A, 0x09, 0x08, 0x07, 0x06, 0x05, 0x04, 0x03, 0x02, 0x01, 0x00, 0x80, 0x81, 0xFF, 0x7F, 0x70, 0x1F, 0x10, 0x00, 0x8F, 0xF0, 0x0F, 0x4A, 0x2B, 0x3C, 0x5D, 0x6E] =
    some ([0xCF, 0xCE, 0xCD, 0xCC, 0xCB, 0xCA, 0xC9, 0xC8, 0xC7, 0xC6, 0xC5, 0xC4, 0xC3, 0xC2, 0xC1, 0xC0, 0x00, 0x00, 0x00, 0xCF, 0xC0, 0xCF, 0xC0, 0xC0, 0x00, 0x00, 0xCF, 0xCA, 0xCB, 0xCC, 0xCD, 0xCE], 4) := by decide +kernel

/-- V18, mode local. -/
theorem test_vshufb_local :
    (nextOf (stepIn { config with shufHalfMode := .localHalf }
      (runningAt 0 [(0, [0x14, 2, 0, 1]), (0x800, [0xC0, 0xC1, 0xC2, 0xC3, 0xC4, 0xC5, 0xC6, 0xC7, 0xC8, 0xC9, 0xCA, 0xCB, 0xCC, 0xCD, 0xCE, 0xCF, 0xD0, 0xD1, 0xD2, 0xD3, 0xD4, 0xD5, 0xD6, 0xD7, 0xD8, 0xD9, 0xDA, 0xDB, 0xDC, 0xDD, 0xDE, 0xDF]),
        (0x820, [0x0F, 0x0E, 0x0D, 0x0C, 0x0B, 0x0A, 0x09, 0x08, 0x07, 0x06, 0x05, 0x04, 0x03, 0x02, 0x01, 0x00, 0x80, 0x81, 0xFF, 0x7F, 0x70, 0x1F, 0x10, 0x00, 0x8F, 0xF0, 0x0F, 0x4A, 0x2B, 0x3C, 0x5D, 0x6E])]))).map (fun t => t.mem.bytes 0x840 32) =
    some [0xCF, 0xCE, 0xCD, 0xCC, 0xCB, 0xCA, 0xC9, 0xC8, 0xC7, 0xC6, 0xC5, 0xC4, 0xC3, 0xC2, 0xC1, 0xC0, 0x00, 0x00, 0x00, 0xDF, 0xD0, 0xDF, 0xD0, 0xD0, 0x00, 0x00, 0xDF, 0xDA, 0xDB, 0xDC, 0xDD, 0xDE] := by
  decide +kernel

/-- V19: ip = 0x22, block 1 is the immediate, nothing else changed. -/
theorem test_vloadi :
    let s := runningAt 0 [(0, [0x11, 1] ++ [0x00, 0x01, 0x02, 0x03, 0x04, 0x05, 0x06, 0x07, 0x08, 0x09, 0x0A, 0x0B, 0x0C, 0x0D, 0x0E, 0x0F, 0x10, 0x11, 0x12, 0x13, 0x14, 0x15, 0x16, 0x17, 0x18, 0x19, 0x1A, 0x1B, 0x1C, 0x1D, 0x1E, 0x1F])]
    nextOf (step s) = some { s with ip := 0x22, mem := s.mem.writeBytes 0x820 [0x00, 0x01, 0x02, 0x03, 0x04, 0x05, 0x06, 0x07, 0x08, 0x09, 0x0A, 0x0B, 0x0C, 0x0D, 0x0E, 0x0F, 0x10, 0x11, 0x12, 0x13, 0x14, 0x15, 0x16, 0x17, 0x18, 0x19, 0x1A, 0x1B, 0x1C, 0x1D, 0x1E, 0x1F] } := by
  decide +kernel

/-- V20: the 0xFF bytes of an immediate do not halt. -/
theorem test_vloadi_of_sentinels :
    (nextOf (step (runningAt 0 [(0, [0x11, 0] ++ rep 33 [0xFF])]))).map
      (fun t => (t.status, t.ip, t.mem.bytes 0x800 32)) = some (.running, 0x22, rep 32 [0xFF]) := by decide +kernel

/-- V23: FF at offset 0. -/
theorem test_halt :
    let s := runningAt 0 [(0, [0xFF])]
    nextOf (step s) = some { s with status := .halted } := by decide +kernel

/-- V22: an inert opcode does not check its operands. -/
theorem test_inert_operands_unchecked :
    let s := runningAt 0 [(0, [0x0F, 0xFF, 0xFF, 0xFF])]
    nextOf (step s) = some { s with ip := 4 } := by decide +kernel

/-- V21: the inert opcodes leave MEM as it was and step over their operands. -/
theorem test_inert :
    ∀ x ∈ ([(0x05, 4), (0x06, 4), (0x08, 4), (0x09, 4), (0x0A, 4), (0x0C, 4), (0x0D, 4), (0x0E, 4), (0x0F, 4),
        (0x10, 3), (0x17, 1)] : List (Byte × Nat)),
      let s := runningAt 0 [(0, [x.1, 2, 0, 1]), (0x840, [7])]
      nextOf (step s) = some { s with ip := x.2 } := by decide +kernel

/-! Faults (95_test_vectors.md program P4), each at the step that faults. -/

/-- P4 (a). -/
theorem test_illegal_opcode :
    faultOf (runningAt 0 [(0, [0x18])]) = some (.faulted, .malformedProgram, 0, 0x18, 0) := by decide +kernel

/-- P4 (b) and (b2): the write of v32, the read of v32. -/
theorem test_block_out_of_range :
    faultOf (runningAt 0x22 [(0x22, [0x02, 0x20, 0, 0])]) = some (.faulted, .outOfRange, 0x22, 0xC00, 0x22) ∧
    faultOf (runningAt 0x22 [(0x22, [0x02, 0, 0x20, 0])]) = some (.faulted, .outOfRange, 0x22, 0xC00, 0x22) := by
  decide +kernel

/-- P4 (c): lane 4 holds 8, lane 5 holds 9; and R175: a bad selector and a bad destination report
PermuteIndex. -/
theorem test_permute_index :
    faultOf (runningAt 0x22 [(0x22, [0x15, 1, 0, 0]),
      (0x800, [0x00, 0x00, 0x00, 0x00, 0x01, 0x00, 0x00, 0x00, 0x02, 0x00, 0x00, 0x00, 0x03, 0x00, 0x00, 0x00, 0x08, 0x00, 0x00, 0x00, 0x09, 0x00, 0x00, 0x00, 0xFF, 0xFF, 0xFF, 0xFF, 0x07, 0x00, 0x00, 0x00])]) =
      some (.faulted, .permuteIndex, 0x22, 8, 0x22) ∧
    faultOf (runningAt 0 [(0, [0x15, 0xFF, 0, 0]), (0x800, [0xFE, 0xFF, 0xFF, 0xFF])]) =
      some (.faulted, .permuteIndex, 0, 0xFFFFFFFE, 0) := by decide +kernel

/-- P4 (d): the fetch at MEM_SIZE. -/
theorem test_opcode_fetch_out_of_range :
    faultOf (runningAt 0xC00 []) = some (.faulted, .outOfRange, 0xC00, 0xC00, 0xC00) := by decide +kernel

/-- P4 (f): the immediate would end at 0xC01. -/
theorem test_immediate_fetch_out_of_range :
    faultOf (runningAt 0xBE0 [(0xBE0, [0x11, 0])]) = some (.faulted, .outOfRange, 0xBE0, 0xBE2, 0xBE0) := by
  decide +kernel

/-- P4 (g): an illegal opcode in the last byte wins over the operand fetch. -/
theorem test_illegal_opcode_in_last_byte :
    faultOf (runningAt 0xBFF [(0xBFF, [0x63])]) = some (.faulted, .malformedProgram, 0xBFF, 0x63, 0xBFF) := by
  decide +kernel

/-- P4 (h): the third operand byte would lie at 0xC00. -/
theorem test_operand_fetch_out_of_range :
    faultOf (runningAt 0xBFD [(0xBFD, [0x02])]) = some (.faulted, .outOfRange, 0xBFD, 0xBFE, 0xBFD) := by
  decide +kernel

/-! The host interface. -/

/-- P5: HostSetInput("HELLO"), and 33 bytes are refused. -/
theorem test_set_input :
    (match hostSetInput [0x48, 0x45, 0x4C, 0x4C, 0x4F] { runningAt 0 [(0x25, rep 32 [0xEE])] with status := .idle } with
      | .ok t => some (t.mem.bytes 0x25 32)
      | .error _ => none) = some ([0x48, 0x45, 0x4C, 0x4C, 0x4F] ++ rep 27 [0]) ∧
    hostSetInput (rep 33 [1]) State.reset = .error (.inputTooLong 33) := by decide +kernel

/-- A configuration of one byte of MEM (R6, R7). -/
def oneByteMemory : Config := { config with memSize := 1, inputOff := 0, inputLen := 1 }

/-- HostLoad and HostRun under it: one NOP, then the fetch at MEM_SIZE = 1 faults (R81, R194, R195). -/
theorem test_run_configured :
    oneByteMemory.wf = true ∧
    (match hostLoad [0x17] State.reset oneByteMemory with
      | .error _ => none
      | .ok s => match hostRun s oneByteMemory with
        | .error _ => none
        | .ok t => some (t.status, t.faultCause, t.faultPc, t.faultInfo, t.ip)) =
      some (.faulted, .outOfRange, 1, 1, 1) := by decide +kernel

/-- P1: blocks 1 and 0x1F equal: Verify is true and Result is 32 NUL characters. -/
theorem test_verify_and_result :
    let s := { runningAt 0x44 [(0x820, rep 16 [0x41, 0x42]), (0xBE0, rep 16 [0x41, 0x42])] with status := .halted }
    hostVerify 1 0x1F 32 s = .ok true ∧ hostVerify 1 2 1 s = .ok false ∧ hostResult s = .ok (rep 32 [0]) := by
  decide +kernel

/-- A memory keeps the canonical form: writing 0 takes the entry out again. -/
theorem test_canonical_form :
    ((Memory.ofImage [1, 0, 2]).writeBytes 0 [0]).cells = [(2, 2)] ∧
    ((Memory.ofImage [1, 0, 2]).writeBytes 1 [3]).cells = [(0, 1), (1, 3), (2, 2)] ∧
    (Memory.ofImage [1, 0, 2]).wf = true ∧ Memory.wf { loaded := true, cells := [(2, 1), (1, 1)] } = false ∧
    Memory.wf { loaded := true, cells := [(2, 0)] } = false ∧ Memory.wf { loaded := true, cells := [(0xC00, 1)] } = false := by
  decide +kernel

/-! Witnesses: for each obligation with hypotheses, a concrete case that meets them, at the edges of the
ranges. -/

/-- Blocks 0 and 31 exist, 32 and 255 do not: the hypotheses of the ALU statements and of
BlockWriteThenReadRoundTrip, clause by clause. -/
theorem witness_blocks :
    config.blockFits 0 = true ∧ config.blockFits 31 = true ∧ config.blockFits 32 = false ∧
    config.blockFits 255 = false ∧ (rep 32 [0]).length = 32 := by decide

/-- IllegalOpcodesAreRefused, MalformedProgramExactlyOnIllegalOpcodes. -/
theorem witness_illegal_opcodes :
    24 ≤ (0x18 : Byte).toNat ∧ (0xFE : Byte).toNat ≤ 254 ∧
    (runningAt 0xBFF [(0xBFF, [0xFE])]).status = .running ∧ (runningAt 0xBFF [(0xBFF, [0xFE])]).ip < config.memSize ∧
    (runningAt 0xBFF [(0xBFF, [0xFE])]).opcodeByte = 0xFE := by decide +kernel

/-- InstructionLengths, StepRunsTheDecodedInstruction: a VLOADI that ends with MEM. -/
theorem witness_step_runs :
    (Instr.vloadi 31 (rep 32 [0xFF])).wf = true ∧ (runningAt 0xBDE [(0xBDE, [0x11, 31] ++ rep 32 [0xFF])]).status = .running ∧
    (encode (.vloadi 31 (rep 32 [0xFF]))).length = 34 ∧
    (runningAt 0xBDE [(0xBDE, [0x11, 31] ++ rep 32 [0xFF])]).ip + 34 = config.memSize ∧
    ∀ k, k < 34 → (runningAt 0xBDE [(0xBDE, [0x11, 31] ++ rep 32 [0xFF])]).mem.read (0xBDE + k) =
      (encode (.vloadi 31 (rep 32 [0xFF]))).getD k 0 := by decide +kernel

/-- DecodeEncodeRoundTrip: the default table and another one. -/
theorem witness_round_trip :
    config.wf = true ∧ (Instr.vpermd 0 255 128).wf config = true ∧
    oneOperandVxorc.wf = true ∧ (Instr.vxorc 255 0 0).wf oneOperandVxorc = true := by decide +kernel

/-- EncodeDecodeRoundTrip. -/
theorem witness_parse : decode [0x10, 0xFF, 0xFF, 0x00] = .ok (.vmov 0xFF 0xFF) [0x00] := by decide

/-- AccessesOutsideMemoryRaiseOutOfRange: both sides of the bound. -/
theorem witness_bounds :
    0xBE0 + 32 ≤ config.memSize ∧ ¬ 0xBE1 + 32 ≤ config.memSize ∧
    config.ramBase + 32 * (31 : Byte).toNat + 32 ≤ config.memSize ∧
    ¬ config.ramBase + 32 * (32 : Byte).toNat + 32 ≤ config.memSize := by decide

/-- FetchSeesBlockWrites: the last byte of the last block. -/
theorem witness_fetch_sees_writes :
    ∃ m', (runningAt 0 []).mem.writeBlock config 31 (rep 32 [0x17]) = .ok m' ∧ 31 < 32 ∧ (rep 32 [0x17]).length = 32 :=
  ⟨_, writeBlock_of_fits (by decide), by decide, by decide⟩

/-- StepIsTotalWhileRunning, StepStopsUnlessRunning, FaultedIsAbsorbing, HostIsRefusedDuringARun: a state of
each STATUS. -/
theorem witness_statuses :
    (runningAt 0 []).status = .running ∧ State.reset.status ≠ .running ∧ State.reset.status ≠ .halted ∧
    ((runningAt 0 []).faulted .outOfRange 0).status = .faulted := by decide

/-- HaltSentinelEndsTheRun, HaltedOnlyAtTheSentinel: the sentinel in the last byte of MEM. -/
theorem witness_halt :
    (runningAt 0xBFF [(0xBFF, [0xFF])]).ip < config.memSize ∧ (runningAt 0xBFF [(0xBFF, [0xFF])]).opcodeByte = 0xFF ∧
    (nextOf (step (runningAt 0xBFF [(0xBFF, [0xFF])]))).map (·.status) = some .halted := by decide +kernel

/-- FetchesOutsideMemoryFault, InertInstructionsOnlyAdvanceIp: an ip at MEM_SIZE; a row whose operands end
one byte past MEM; an inert row in the last byte of MEM. -/
theorem witness_fetch_faults :
    config.memSize ≤ (runningAt 0xC00 []).ip ∧ (runningAt 0xBFD [(0xBFD, [0x02])]).ip < config.memSize ∧
    config.rowOf (runningAt 0xBFD [(0xBFD, [0x02])]).opcodeByte = some { handler := .vxor, count := 3 } ∧
    config.memSize < 0xBFD + 1 + 3 ∧
    config.rowOf (runningAt 0xBFF [(0xBFF, [0x17])]).opcodeByte = some { handler := .nop, count := 0 } ∧
    Handler.nop.inert = true := by decide +kernel

/-- IpAfterAnInstruction, NoStepWritesBelowRamBase, OneBlockIsTheOnlySideEffect, EveryStepKeepsTheInvariant,
StepReadsOnlyTheArchitecturalState: a step from a state with the invariant that writes a block. -/
theorem witness_step_from_inv :
    ∃ s t : State, s.Inv ∧ s.Same s ∧ step s = .next t ∧ t.status = .running ∧ t.mem ≠ s.mem := by
  refine ⟨runningAt 0 [(0, [0x07, 2, 0, 1]), (0x800, [1])], _, ⟨by decide +kernel, by decide, by decide⟩,
    ⟨fun _ _ => rfl, rfl, rfl, rfl, rfl, rfl⟩, rfl, by decide, by decide +kernel⟩

/-- OneBlockIsTheOnlySideEffect, the forms that store nothing and those that do. -/
theorem witness_stores_nothing :
    storesNothing (.vmov 0 0) = true ∧ storesNothing .halt = true ∧ storesNothing (.vxor 32 0 0) = false ∧
    nextOf (exec (.vmov 0 0) (runningAt 0 [])) = some { runningAt 0 [] with ip := 3 } := by decide +kernel

/-- FaultsArePrecise, PermuteIndexOnlyFromVpermd: a step that ends in FAULTED. -/
theorem witness_faulting_step :
    (nextOf (step (runningAt 0 [(0, [0x15, 0, 0, 0]), (0x800, [8])]))).map (fun t => (t.status, t.faultCause, t.faultInfo)) =
    some (.faulted, .permuteIndex, 8) := by decide +kernel

/-- VxorIsSelfInverse. -/
theorem witness_self_inverse :
    config.blockFits 3 = true ∧ config.blockFits 2 = true ∧ config.blockFits 0 = true ∧ config.blockFits 1 = true ∧
    (2 : Byte) ≠ 0 := by decide

/-- VpermdPermutesDwords: selectors that raise nothing at both edges, and a first bad lane behind good ones,
at both edges of the bad range. -/
theorem witness_selectors :
    goodSelector 0xFFFFFFFF ∧ goodSelector 0 ∧ goodSelector 7 ∧ ¬ goodSelector 8 ∧ ¬ goodSelector 0xFFFFFFFE ∧
    (∀ k, k < 8 → (runningAt 0 []).dword 0 k = 0) ∧
    (runningAt 0 [(0x81C, [8])]).dword 0 7 = 8 ∧ (∀ k, k < 7 → (runningAt 0 [(0x81C, [8])]).dword 0 k = 0) := by
  unfold goodSelector; decide +kernel

/-- VloadiLoadsTheImmediate: an immediate that ends one byte past MEM. -/
theorem witness_vloadi :
    (rep 32 [0xFF]).length = 32 ∧ (runningAt 0xBDF [(0xBDF, [0x11, 0])]).ip + 2 ≤ config.memSize ∧
    (runningAt 0xBDF [(0xBDF, [0x11, 0])]).opcodeByte = 0x11 ∧
    config.memSize < (runningAt 0xBDF [(0xBDF, [0x11, 0])]).ip + 34 := by decide +kernel

/-- EveryRunEnds, HostRunStartsAtZeroAndRunsToTheEnd, HostOperationsKeepTheInvariant: a run of one step that
HostRun answers. -/
theorem witness_run :
    (runningAt 0xC00 []).status = .running ∧ (runningAt 0xC00 []).ip ≤ config.memSize ∧
    State.reset.status ≠ .running ∧ oneByteMemory.memSize + 1 ≤ 2 ∧
    (match hostRun { runningAt 0 [(0, [0xFF])] with status := .idle } with
      | .ok t => t.status == .halted
      | .error _ => false) = true := by decide +kernel

/-- HostLoadFillsMemory: an image of MEM_SIZE bytes. -/
theorem witness_load : (List.replicate config.memSize (0x17 : Byte)).length = config.memSize ∧ State.reset.status ≠ .running :=
  ⟨List.length_replicate, by decide⟩

/-- HostSetInputWritesTheInputRegion: the longest data allowed, and one byte more. -/
theorem witness_input :
    State.reset.status ≠ .running ∧ (rep 32 [1]).length ≤ config.inputLen ∧ config.inputLen < (rep 33 [1]).length := by
  decide

/-- HostReadsBack: the last byte of MEM, one past it, and the edge of VERIFY_LEN in a halted state. -/
theorem witness_readback :
    0xBFF + 1 ≤ config.memSize ∧ config.memSize < 0xBFF + 2 ∧ State.reset.status ≠ .running ∧
    (runningAt 0 []).halt.status = .halted ∧ config.blockFits 31 = true ∧ 32 ≤ 32 := by decide

end Sys2Proof.Tests
end

section
/-! SUPPORT and PROOFS. The lane views as sums of a lane's bytes by significance, in either byte order, and
from them that viewing inverts packing (R9); the defaults of the parameters (R6, R7, R66, R67). -/

namespace Sys2Proof.Machine

theorem LaneOrder.place_lt (o : LaneOrder) {w j : Nat} (hj : j < w) : LaneOrder.place o w j < w := by
  cases o with
  | little => exact hj
  | big => simp only [LaneOrder.place]; omega

/-- A place in a lane and a significance determine each other. -/
theorem LaneOrder.place_place (o : LaneOrder) {w j : Nat} (hj : j < w) :
    LaneOrder.place o w (LaneOrder.place o w j) = j := by
  cases o with
  | little => rfl
  | big => simp only [LaneOrder.place]; omega

/-- The byte of significance `j` of lane `k`, found at its place in the lane, in either byte order. -/
theorem u8_packLanes (o : LaneOrder) (f : Nat → Int) {w k j : Nat} (hj : j < w) (hk : w * k + w ≤ 32) :
    u8 (packLanes o w f) (w * k + LaneOrder.place o w j) =
      (f k % ((2 ^ (8 * w) : Nat) : Int)).toNat / 2 ^ (8 * j) % 256 := by
  have hp := LaneOrder.place_lt o hj
  rw [u8, getD_packLanes _ _ _ (by omega), Nat.mul_add_div (by omega), Nat.div_eq_of_lt hp,
    Nat.mul_add_mod, Nat.mod_eq_of_lt hp, LaneOrder.place_place o hj, toNat_laneByte, Nat.add_zero]

theorem u16_eq_sum_by_significance (o : LaneOrder) (b : Block) (k : Nat) :
    u16 o b k = u8 b (2 * k + LaneOrder.place o 2 0) + 256 * u8 b (2 * k + LaneOrder.place o 2 1) := by
  cases o <;> rfl

theorem u32_eq_sum_by_significance (o : LaneOrder) (b : Block) (k : Nat) :
    u32 o b k = u8 b (4 * k + LaneOrder.place o 4 0) + 256 * u8 b (4 * k + LaneOrder.place o 4 1) +
      65536 * u8 b (4 * k + LaneOrder.place o 4 2) + 16777216 * u8 b (4 * k + LaneOrder.place o 4 3) := by
  cases o <;> rfl

theorem u8_pack8 (f : Nat → Int) {i : Nat} (hi : i < 32) : (u8 (pack8 f) i : Int) = f i % 256 := by
  rw [u8, toNat_getD_pack8 f hi, Int.toNat_of_nonneg (by omega)]

/-- `u16_pack16` for both byte orders. -/
theorem u16_pack16_of_order (o : LaneOrder) (f : Nat → Int) {k : Nat} (hk : k < 16) :
    (u16 o (pack16 o f) k : Int) = f k % 65536 := by
  rw [u16_eq_sum_by_significance, pack16, u8_packLanes o f (by omega) (by omega),
    u8_packLanes o f (by omega) (by omega)]
  norm_num
  omega

/-- `u32_pack32` for both byte orders. -/
theorem u32_pack32_of_order (o : LaneOrder) (f : Nat → Int) {k : Nat} (hk : k < 8) :
    (u32 o (pack32 o f) k : Int) = f k % 4294967296 := by
  rw [u32_eq_sum_by_significance, pack32, u8_packLanes o f (by omega) (by omega),
    u8_packLanes o f (by omega) (by omega), u8_packLanes o f (by omega) (by omega),
    u8_packLanes o f (by omega) (by omega)]
  norm_num
  omega

/-- Settles O6: each lane's bytes by significance are the base-256 digits of the reduced value (R9), so
their weighted sum gives it back, whichever order the lane keeps them in (R6). -/
theorem packingInvertsTheViews : Obligations.PackingInvertsTheViews := fun o f =>
  ⟨fun _ => u8_pack8 f, fun _ => u16_pack16_of_order o f, fun _ => u32_pack32_of_order o f⟩

theorem config_wf : config.wf = true := by decide

/-- The 24 rows of OPMAP, in the order of their opcode bytes (R66, R67). -/
theorem config_opmap_rows :
    config.opmap.map (fun r => (r.handler, r.count)) =
      [(.vmaddbw, 3), (.vmaddwd, 3), (.vxor, 3), (.vor, 3), (.vand, 3), (.vxorc, 3), (.vaddwu, 3), (.vaddb, 3),
       (.vsubb, 3), (.vaddw, 3), (.vsubw, 3), (.vaddd, 3), (.vsubd, 3), (.vaddq, 3), (.vsubq, 3), (.vmullm, 3),
       (.vmov, 2), (.vloadi, 1), (.vsrld, 3), (.vslld, 3), (.vshufb, 3), (.vpermd, 3), (.vcmpeqb, 3), (.nop, 0)] := by
  decide

/-- Settles O7: the parameters' values, the check of R7, and the rows of the default table. -/
theorem defaultParameters : Obligations.DefaultParameters :=
  ⟨config_wf, config_ramBase, config_inputOff, config_inputLen, config_memSize, config_laneOrder,
    config_shufHalfMode, config_permSelectorOperand, config_shufMaskOperand, config_shiftCountOperand,
    config_resultA, config_resultB, rfl, rfl, rfl, config_opmap_rows⟩

end Sys2Proof.Machine
end

section
/-! SUPPORT and PROOFS. What a step does to the state, by the three ways an instruction ends: the sentinel, a
fault, or going on past its own bytes; then the invariant (R20, R24, R27, R176), ip (R25) and the frame
(R26, R83, R150). -/

namespace Sys2Proof.Machine

/-! How an instruction ends. -/

/-- An instruction that takes no fault goes on: ip is past it, and STATUS and the fault registers are kept. -/
theorem Ends.faults_or_goes_on {c : Config} {o1 : Byte} {h : Handler} {s t : State} (e : Ends c o1 h s t) :
    (∃ r, r.cause ≠ .none ∧ t = s.takeFault r) ∨ (t.ip = s.ip + c.lengthOf h ∧ SameControl s t) := by
  obtain hfault | rfl | ⟨data, -, -, rfl⟩ := e
  · exact .inl hfault
  · exact .inr ⟨rfl, rfl, rfl, rfl, rfl⟩
  · exact .inr ⟨rfl, rfl, rfl, rfl, rfl⟩

theorem Ends.read_outside {c : Config} {o1 : Byte} {h : Handler} {s t : State} (e : Ends c o1 h s t) {a : Nat}
    (ha : a < c.blockOffset o1 ∨ c.blockOffset o1 + 32 ≤ a) : t.mem.read a = s.mem.read a := by
  obtain ⟨r, -, rfl⟩ | rfl | ⟨data, -, hlen, rfl⟩ := e
  · rfl
  · rfl
  · exact Memory.read_writeBytes_outside _ _ _ _ (by omega)

theorem Ends.wf {c : Config} {o1 : Byte} {h : Handler} {s t : State} (e : Ends c o1 h s t)
    (hm : s.mem.wf c = true) : t.mem.wf c = true := by
  obtain ⟨r, -, rfl⟩ | rfl | ⟨data, hfit, hlen, rfl⟩ := e
  · exact hm
  · exact hm
  · have := (inRange_iff c _ _).1 hfit
    exact Memory.writeBytes_wf hm (by omega)

/-- A step ends the run at the sentinel, takes a fault, or goes on past the instruction it fetched. -/
theorem step_halts_faults_or_goes_on {s t : State} (h : step s = .next t) :
    t = s.halt ∨ (∃ r, r.cause ≠ .none ∧ t = s.takeFault r) ∨
    ∃ i hd, s.fetch = .ok i ∧ i.handler = some hd ∧ t.ip = s.ip + config.lengthOf hd ∧ SameControl s t := by
  obtain ⟨-, ⟨r, -, hr, rfl⟩ | ⟨i, hf, he⟩⟩ := step_eq_next h
  · exact .inr (.inl ⟨r, hr, rfl⟩)
  obtain ⟨-, rfl⟩ | ⟨hd, hh, hends⟩ := exec_eq_next he
  · exact .inl rfl
  obtain hfault | ⟨hip, hctl⟩ := hends.faults_or_goes_on
  · exact .inr (.inl hfault)
  · exact .inr (.inr ⟨i, hd, hf, hh, hip, hctl⟩)

theorem step_keeps_wf {s t : State} (hm : s.mem.wf = true) (h : step s = .next t) : t.mem.wf = true := by
  obtain ⟨-, ⟨r, -, -, rfl⟩ | ⟨i, -, he⟩⟩ := step_eq_next h
  · exact hm
  obtain ⟨-, rfl⟩ | ⟨hd, -, hends⟩ := exec_eq_next he
  · exact hm
  · exact hends.wf hm

/-! The invariant. -/

theorem State.inv_of_clear {s : State} (hm : s.mem.wf = true) (hip : s.ip ≤ config.memSize)
    (hs : s.status ≠ .faulted) (hclear : s.faultCause = .none ∧ s.faultPc = 0 ∧ s.faultInfo = 0) : s.Inv :=
  ⟨hm, hip, by rwa [if_neg hs]⟩

theorem State.Inv.clear {s : State} (h : s.Inv) (hs : s.status ≠ .faulted) :
    s.faultCause = .none ∧ s.faultPc = 0 ∧ s.faultInfo = 0 := by
  obtain ⟨-, -, hregs⟩ := h
  rwa [if_neg hs] at hregs

theorem State.Inv.takeFault {s : State} (h : s.Inv) {r : FaultReport} (hr : r.cause ≠ .none) : (s.takeFault r).Inv := by
  obtain ⟨hm, hip, -⟩ := h
  exact ⟨hm, hip, hr, rfl⟩

theorem State.Inv.halt {s : State} (h : s.Inv) (hs : s.status ≠ .faulted) : s.halt.Inv :=
  have ⟨hm, hip, _⟩ := h
  inv_of_clear hm hip (by simp) (h.clear hs)

/-- Settles O39: a fault writes a cause and FAULT_PC = ip; otherwise the fault registers stay clear, ip moves
only past an instruction that was fetched inside MEM, and a block is written only inside MEM. -/
theorem everyStepKeepsTheInvariant : Obligations.EveryStepKeepsTheInvariant := by
  intro s t hinv h
  obtain ⟨hrun, -⟩ := step_eq_next h
  have hs : s.status ≠ .faulted := by simp [hrun]
  obtain rfl | ⟨r, hr, rfl⟩ | ⟨i, hd, hf, hh, hip, hstatus, hcause, hpc, hinfo⟩ := step_halts_faults_or_goes_on h
  · exact hinv.halt hs
  · exact hinv.takeFault hr
  · have ⟨hm, _, _⟩ := hinv
    have hfits := (fetch_ok_length hf).2 hd hh
    exact State.inv_of_clear (step_keeps_wf hm h) (by omega) (by rwa [hstatus])
      (by rw [hcause, hpc, hinfo]; exact hinv.clear hs)

/-- Settles O38: the reset memory lists no byte, ip is 0, and the fault registers are clear (R33). -/
theorem resetMeetsTheInvariant : Obligations.ResetMeetsTheInvariant :=
  State.inv_of_clear (by decide) (Nat.zero_le _) (by decide) ⟨rfl, rfl, rfl⟩

/-! ip after a step. -/

theorem fetch_ok {c : Config} {s : State} {i : Instr} (h : s.fetch c = .ok i) :
    ∃ rest, decode (s.stream c) c = .ok i rest := by
  unfold State.fetch at h
  split at h <;> cases h
  exact ⟨_, ‹_›⟩

/-- What the decoder accepts is the sentinel, or follows the row of its first byte. -/
theorem decode_cons_ok {c : Config} {op : Byte} {tl rest : List Byte} {i : Instr}
    (h : decode (op :: tl) c = .ok i rest) :
    (op = haltByte ∧ i = .halt) ∨ ∃ row, c.rowOf op = some row ∧ decodeRow row tl = .ok i rest := by
  simp only [decode] at h
  split_ifs at h with hop
  · obtain ⟨rfl, -⟩ := DecodeResult.ok.inj h
    exact .inl ⟨hop, rfl⟩
  · cases hrow : c.rowOf op with
    | none => rw [hrow] at h; cases h
    | some row => rw [hrow] at h; exact .inr ⟨row, rfl, h⟩

/-- A fetched instruction with a handler has the opcode byte the default table gives that handler. -/
theorem fetch_ok_opcodeByte {s : State} {i : Instr} {hd : Handler} (hf : s.fetch = .ok i)
    (hh : i.handler = some hd) : s.opcodeByte = config.opcodeOf hd := by
  obtain ⟨rest, hdec⟩ := fetch_ok hf
  obtain ⟨tl, hstream, -⟩ := stream_cons (fetch_ok_length hf).1
  rw [hstream] at hdec
  obtain ⟨-, rfl⟩ | ⟨row, hrow, hdr⟩ := decode_cons_ok hdec
  · cases hh
  · obtain ⟨-, rfl⟩ := decodeRow_ok hdr
    rw [Handler.handler_instr] at hh
    obtain rfl := Option.some.inj hh
    exact (rowOf_cases hrow).1

/-- `lengthByOpcode` is the table's length of the handler that the byte selects (R71). -/
theorem lengthByOpcode_opcodeOf (hd : Handler) : lengthByOpcode (config.opcodeOf hd) = config.lengthOf hd := by
  cases hd <;> decide

theorem opcodeOf_lt (hd : Handler) : (config.opcodeOf hd).toNat < 24 := by
  cases hd <;> decide

/-- Settles O19: a step that goes on has fetched an instruction with a handler, whose opcode byte is the one
at ip and whose length the table gives. -/
theorem ipAfterAnInstruction : Obligations.IpAfterAnInstruction := by
  intro s t h
  obtain ⟨hrun, -⟩ := step_eq_next h
  obtain rfl | ⟨r, -, rfl⟩ | ⟨i, hd, hf, hh, hip, hstatus, -⟩ := step_halts_faults_or_goes_on h
  · exact .inr ⟨.inl rfl, rfl⟩
  · exact .inr ⟨.inr rfl, rfl⟩
  · left
    rw [fetch_ok_opcodeByte hf hh, lengthByOpcode_opcodeOf]
    exact ⟨hstatus.trans hrun, hip, opcodeOf_lt hd⟩

/-! The frame of an instruction. -/

theorem exec_eq_execIn (i : Instr) (s : State) : exec i s = execIn config i s := by
  cases i <;> rfl

theorem storesNothing_of_handler {i : Instr} {hd : Handler} (hh : i.handler = some hd) :
    storesNothing i = hd.inert := by
  simp [storesNothing, hh]

/-- An inert instruction does nothing but step over itself (R150). -/
theorem exec_inert_eq_next {i : Instr} {hd : Handler} {s t : State} (hh : i.handler = some hd)
    (hi : hd.inert = true) (h : exec i s = .next t) : t = { s with ip := s.ip + config.lengthOf hd } := by
  rw [exec_eq_execIn, execIn_inert hh hi] at h
  exact (Host.Outcome.next.inj h).symm

/-- Settles O36: the sentinel only halts, an inert instruction only moves ip, and any other ends in a fault
or in a write of at most 32 bytes at its destination block. -/
theorem oneBlockIsTheOnlySideEffect : Obligations.OneBlockIsTheOnlySideEffect := by
  intro i s t h
  obtain ⟨rfl, rfl⟩ | ⟨hd, hh, hends⟩ := exec_eq_next h
  · exact ⟨fun _ _ => rfl, fun _ _ => rfl, rfl⟩
  have hne : i ≠ .halt := by rintro rfl; cases hh
  rw [storesNothing_of_handler hh, if_neg hne]
  refine ⟨fun a ha => hends.read_outside ha, ?_⟩
  cases hi : hd.inert with
  | true =>
    obtain rfl := exec_inert_eq_next hh hi h
    exact ⟨fun _ _ => rfl, .inl ⟨rfl, rfl, rfl, rfl⟩⟩
  | false =>
    refine ⟨nofun, ?_⟩
    obtain ⟨r, -, rfl⟩ | ⟨-, hctl⟩ := hends.faults_or_goes_on
    · exact .inr ⟨rfl, r.cause, r.info, rfl⟩
    · exact .inl hctl

end Sys2Proof.Machine
end

section
/-! SUPPORT and PROOFS. Execution reads nothing but the architectural state (R30, R85): each operation of the
machine is alike on two states that no program can tell apart, and so is a step. -/

namespace Sys2Proof.Machine

/-- Both answer a next state, and those two cannot be told apart. -/
def AnswerAlike (x y : Result) : Prop := ∃ s t : State, x = .next s ∧ y = .next t ∧ s.Same t

namespace State.Same

variable {s t : State}

theorem bytes_eq (hs : s.Same t) {a n : Nat} (h : a + n ≤ config.memSize) : s.mem.bytes a n = t.mem.bytes a n := by
  refine List.map_congr_left fun j hj => hs.1 _ ?_
  have := List.mem_range.1 hj
  omega

theorem readBlock_eq (hs : s.Same t) (i : Byte) : s.mem.readBlock config i = t.mem.readBlock config i := by
  cases hf : config.blockFits i with
  | true => rw [readBlock_of_fits hf, readBlock_of_fits hf, hs.bytes_eq ((inRange_iff _ _ _).1 hf)]
  | false => rw [readBlock_of_not_fits hf, readBlock_of_not_fits hf]

/-- Past the end of MEM the stream is empty; before it, it ends inside MEM. -/
theorem stream_eq (hs : s.Same t) : s.stream = t.stream := by
  have ⟨_, hip, _⟩ := hs
  by_cases h : s.ip < config.memSize
  · rw [State.stream, State.stream, ← hip]
    exact hs.bytes_eq (by omega)
  · rw [stream_nil (by omega), stream_nil (by omega)]

theorem fetch_eq (hs : s.Same t) : s.fetch = t.fetch := by
  have ⟨_, hip, _⟩ := hs
  rw [State.fetch, State.fetch, hs.stream_eq, hip]

theorem takeFault (hs : s.Same t) (r : FaultReport) : (s.takeFault r).Same (t.takeFault r) := by
  obtain ⟨hmem, hip, -⟩ := hs
  exact ⟨hmem, hip, rfl, rfl, hip, rfl⟩

theorem halt (hs : s.Same t) : s.halt.Same t.halt := by
  obtain ⟨hmem, hip, -, hregs⟩ := hs
  exact ⟨hmem, hip, rfl, hregs⟩

theorem read_writeBytes_eq (hs : s.Same t) (a : Nat) (bs : List Byte) {k : Nat} (hk : k < config.memSize) :
    (s.mem.writeBytes a bs).read k = (t.mem.writeBytes a bs).read k := by
  rw [Memory.read_writeBytes, Memory.read_writeBytes, hs.1 k hk]

theorem next_alike (hs : s.Same t) (len : Nat) {m n : Memory}
    (hmem : ∀ a, a < config.memSize → m.read a = n.read a) :
    AnswerAlike (.next { s with mem := m, ip := s.ip + len }) (.next { t with mem := n, ip := t.ip + len }) := by
  obtain ⟨-, hip, hregs⟩ := hs
  exact ⟨_, _, rfl, rfl, hmem, congrArg (· + len) hip, hregs⟩

theorem fault_alike (hs : s.Same t) (r : FaultReport) :
    AnswerAlike (.next (s.takeFault r)) (.next (t.takeFault r)) :=
  ⟨_, _, rfl, rfl, hs.takeFault r⟩

/-- The shape every storing form has: data that is computed, or a fault, and then the one write. -/
theorem finish_write_alike (hs : s.Same t) (h : Handler) (o1 : Byte) (data : Except FaultReport Block) :
    AnswerAlike (s.finish config h (data >>= s.mem.writeBlock config o1))
      (t.finish config h (data >>= t.mem.writeBlock config o1)) := by
  cases data with
  | error r => exact hs.fault_alike r
  | ok d =>
    simp only [bind, Except.bind]
    cases hf : config.blockFits o1 with
    | true =>
      rw [writeBlock_of_fits hf, writeBlock_of_fits hf]
      exact hs.next_alike _ fun a ha => hs.read_writeBytes_eq _ _ ha
    | false =>
      rw [writeBlock_of_not_fits hf, writeBlock_of_not_fits hf]
      exact hs.fault_alike _

theorem twoBlocks_alike (hs : s.Same t) (h : Handler) (f : Block → Block → Except FaultReport Block)
    (o1 o2 o3 : Byte) : AnswerAlike (twoBlocks config h f o1 o2 o3 s) (twoBlocks config h f o1 o2 o3 t) := by
  simp only [twoBlocks, hs.readBlock_eq]
  simpa only [bind_assoc] using hs.finish_write_alike h o1
    (do let x2 ← t.mem.readBlock config o2; let x3 ← t.mem.readBlock config o3; f x2 x3)

theorem blockAndCount_alike (hs : s.Same t) (h : Handler) (f : Block → Nat → Block) (o1 o2 o3 : Byte) :
    AnswerAlike (blockAndCount config h f o1 o2 o3 s) (blockAndCount config h f o1 o2 o3 t) := by
  simp only [blockAndCount, hs.readBlock_eq]
  simpa only [bind_assoc, pure_bind] using hs.finish_write_alike h o1
    (do let a ← t.mem.readBlock config (SourceOperand.split config.shiftCountOperand o2 o3).2
        pure (f a (SourceOperand.split config.shiftCountOperand o2 o3).1.toNat))

theorem immediate_alike (hs : s.Same t) (h : Handler) (o1 : Byte) (imm : Block) :
    AnswerAlike (immediate config h o1 imm s) (immediate config h o1 imm t) :=
  hs.finish_write_alike h o1 (.ok imm)

theorem inertStep_alike (hs : s.Same t) (h : Handler) : AnswerAlike (inertStep config h s) (inertStep config h t) :=
  hs.next_alike _ hs.1

/-- Each instruction by its operand form. -/
theorem exec_alike (hs : s.Same t) (i : Instr) : AnswerAlike (exec i s) (exec i t) := by
  cases i with
  | halt => exact ⟨_, _, rfl, rfl, hs.halt⟩
  | vloadi => exact hs.immediate_alike _ _ _
  | vsrld | vslld => exact hs.blockAndCount_alike _ _ _ _ _
  | vmaddbw | vmaddwd | vxor | vor | vand | vaddb | vaddd | vshufb | vpermd | vcmpeqb =>
    exact hs.twoBlocks_alike _ _ _ _ _
  | vxorc | vaddwu | vsubb | vaddw | vsubw | vsubd | vaddq | vsubq | vmullm | vmov | nop =>
    exact hs.inertStep_alike _

theorem step_alike (hs : s.Same t) (hrun : s.status = .running) : AnswerAlike (step s) (step t) := by
  have ⟨_, _, hstatus, _⟩ := hs
  have hrun' : t.status = .running := hstatus.symm.trans hrun
  have hfetch := hs.fetch_eq
  cases hf : s.fetch with
  | error r =>
    rw [step_of_fetch_error hrun hf, step_of_fetch_error hrun' (hfetch.symm.trans hf)]
    exact hs.fault_alike r
  | ok i =>
    rw [step_of_fetch_ok hrun hf, step_of_fetch_ok hrun' (hfetch.symm.trans hf)]
    exact hs.exec_alike i

end State.Same

/-- Settles O42: a step is a fetch and one instruction, each alike on both states (`State.Same.step_alike`). -/
theorem stepReadsOnlyTheArchitecturalState : Obligations.StepReadsOnlyTheArchitecturalState := by
  intro s t s' hs h
  obtain ⟨s₁, t', hs₁, ht, hsame⟩ := hs.step_alike (step_eq_next h).1
  obtain rfl := Host.Outcome.next.inj (h.symm.trans hs₁)
  exact ⟨t', ht, hsame⟩

end Sys2Proof.Machine
end

section
/-! SUPPORT and PROOFS. The memory controller: when each primitive answers and when it raises OutOfRange (R43
to R46), what a block write changes and leaves unchanged (R58), that a fetch sees it (R55), and that no step
writes below RAM_BASE (R41). -/

namespace Sys2Proof.Machine

/-! When an access is in range. -/

theorem blockFits_iff (c : Config) (i : Byte) :
    c.blockFits i = true ↔ c.ramBase + 32 * i.toNat + 32 ≤ c.memSize :=
  inRange_iff c (c.blockOffset i) 32

theorem readRaw_eq_ite (c : Config) (m : Memory) (a n : Nat) :
    m.readRaw c a n =
      if a + n ≤ c.memSize then .ok (m.bytes a n) else .error { cause := .outOfRange, info := a } := by
  simp only [Memory.readRaw, checkRange, inRange_iff]
  split_ifs <;> rfl

theorem exists_readBlock_ok_iff {c : Config} {m : Memory} {i : Byte} :
    (∃ b, m.readBlock c i = .ok b) ↔ c.blockFits i = true := by
  cases hf : c.blockFits i with
  | true => simp [readBlock_of_fits hf]
  | false => simp [readBlock_of_not_fits hf]

theorem exists_writeBlock_ok_iff {c : Config} {m : Memory} {i : Byte} {data : Block} :
    (∃ m', m.writeBlock c i data = .ok m') ↔ c.blockFits i = true := by
  cases hf : c.blockFits i with
  | true => simp [writeBlock_of_fits hf]
  | false => simp [writeBlock_of_not_fits hf]

/-- Settles O9: each primitive makes the range check of R43 and no other. -/
theorem accessesOutsideMemoryRaiseOutOfRange : Obligations.AccessesOutsideMemoryRaiseOutOfRange := by
  intro m a n i data
  rw [← blockFits_iff, Bool.not_eq_true]
  exact ⟨readRaw_eq_ite config m a n, exists_readBlock_ok_iff, exists_writeBlock_ok_iff,
    fun hf => ⟨readBlock_of_not_fits hf, writeBlock_of_not_fits hf⟩⟩

/-! What a write changes and what it leaves unchanged. -/

theorem Memory.bytes_writeBytes_same (m : Memory) (a : Nat) (bs : List Byte) :
    (m.writeBytes a bs).bytes a bs.length = bs := by
  refine List.ext_getElem (length_bytes ..) fun j _ hj => ?_
  simp only [bytes, List.getElem_map, List.getElem_range]
  rw [read_writeBytes_inside _ _ _ _ hj, List.getD_eq_getElem _ _ hj]

theorem Memory.bytes_writeBytes_disjoint (m : Memory) (a k n : Nat) (bs : List Byte)
    (h : k + n ≤ a ∨ a + bs.length ≤ k) : (m.writeBytes a bs).bytes k n = m.bytes k n := by
  refine List.map_congr_left fun j hj => read_writeBytes_outside _ _ _ _ ?_
  have := List.mem_range.1 hj
  omega

/-- Blocks of different indices do not overlap (R42). -/
theorem blockOffset_disjoint (c : Config) {i j : Byte} (h : j ≠ i) :
    c.blockOffset j + 32 ≤ c.blockOffset i ∨ c.blockOffset i + 32 ≤ c.blockOffset j := by
  have : j.toNat ≠ i.toNat := fun he => h (BitVec.eq_of_toNat_eq he)
  simp only [Config.blockOffset]
  omega

theorem readBlock_writeBytes_same {c : Config} {m : Memory} {i : Byte} {data : Block}
    (hf : c.blockFits i = true) (hlen : data.length = 32) :
    (m.writeBytes (c.blockOffset i) data).readBlock c i = .ok data := by
  rw [readBlock_of_fits hf, ← hlen, Memory.bytes_writeBytes_same]

theorem readBlock_writeBytes_other {c : Config} {m : Memory} {i j : Byte} {data : Block}
    (hlen : data.length ≤ 32) (h : j ≠ i) :
    (m.writeBytes (c.blockOffset i) data).readBlock c j = m.readBlock c j := by
  have := blockOffset_disjoint c h
  cases hf : c.blockFits j with
  | true => rw [readBlock_of_fits hf, readBlock_of_fits hf, Memory.bytes_writeBytes_disjoint _ _ _ _ _ (by omega)]
  | false => rw [readBlock_of_not_fits hf, readBlock_of_not_fits hf]

/-- No block reaches below RAM_BASE (R41, R42). -/
theorem lt_blockOffset_of_lt_ramBase {c : Config} {a : Nat} (ha : a < c.ramBase) (i : Byte) : a < c.blockOffset i :=
  ha.trans_le (blockOffset_lower c i)

/-- Settles O10: the write of an existing block puts 32 bytes at its offset; other blocks do not overlap it
and RAM_BASE lies at or below it. -/
theorem blockWriteThenReadRoundTrip : Obligations.BlockWriteThenReadRoundTrip := by
  intro m i data hf hlen
  have htake : (data.take 32).length = 32 := List.length_take_of_le hlen
  exact ⟨_, writeBlock_of_fits hf, readBlock_writeBytes_same hf htake,
    fun _ hj => readBlock_writeBytes_other htake.le hj, fun _ ha =>
      Memory.read_writeBytes_outside _ _ _ _ (.inl (lt_blockOffset_of_lt_ramBase ha i))⟩

/-! A fetch after a write. -/

theorem head?_stream {s : State} (h : s.ip < config.memSize) : s.stream.head? = some s.opcodeByte := by
  obtain ⟨tl, hstream, -⟩ := stream_cons h
  rw [hstream, List.head?_cons]

/-- Settles O11: a block that was written lies inside MEM, so the fetch begins with the byte at ip, which is
the one the write put there. -/
theorem fetchSeesBlockWrites : Obligations.FetchSeesBlockWrites := by
  intro s m' i data j hlen hj h
  obtain ⟨hf, rfl⟩ := writeBlock_ok h
  have hin : config.blockOffset i + 32 ≤ config.memSize := (inRange_iff _ _ _).1 hf
  have hip : config.blockOffset i + j < config.memSize := by omega
  rw [List.take_of_length_le hlen.le, head?_stream hip]
  exact congrArg some (Memory.read_writeBytes_inside _ _ _ _ (hlen ▸ hj))

/-! No step writes below RAM_BASE. -/

/-- Settles O37: a fetch fault leaves MEM as it was, and an instruction changes at most the block its first
operand byte names (O36), which lies at or above RAM_BASE. -/
theorem noStepWritesBelowRamBase : Obligations.NoStepWritesBelowRamBase := by
  intro s t h a ha
  obtain ⟨-, ⟨r, -, -, rfl⟩ | ⟨i, -, he⟩⟩ := step_eq_next h
  · rfl
  · obtain ⟨hframe, -⟩ := oneBlockIsTheOnlySideEffect i s t he
    exact hframe a (.inl (lt_blockOffset_of_lt_ramBase ha _))

end Sys2Proof.Machine
end

section
/-! SUPPORT and PROOFS. The encoding (30_encoding.md): what the decoder does at each opcode byte, what the
encoder gives for each instruction, that a checked opcode table finds every handler's row by its opcode byte,
and from them the two round trips (R60, R61, R71), the lengths (R71) and the halt sentinel (R68, R83). -/

namespace Sys2Proof.Machine

/-! The decoder, by the opcode byte. -/

@[simp] theorem decode_haltByte (c : Config) (tl : List Byte) : decode (haltByte :: tl) c = .ok .halt tl := by
  simp only [decode, if_true]

theorem decode_of_rowOf_some {c : Config} {op : Byte} {row : OpRow} (hop : op ≠ haltByte)
    (hrow : c.rowOf op = some row) (tl : List Byte) : decode (op :: tl) c = decodeRow row tl := by
  simp only [decode, if_neg hop, hrow]

theorem decode_of_rowOf_none {c : Config} {op : Byte} (hop : op ≠ haltByte) (hrow : c.rowOf op = none)
    (tl : List Byte) : decode (op :: tl) c = .illegal op := by
  simp only [decode, if_neg hop, hrow]

/-- An opcode byte below the halt sentinel is not the halt sentinel (R68). -/
theorem ne_haltByte_of_lt {op : Byte} (h : op.toNat < 255) : op ≠ haltByte := by
  rintro rfl
  exact absurd h (by decide)

/-- A row reads exactly its operand bytes and its handler's immediate, and leaves the rest. -/
theorem decodeRow_eq_ok_iff {row : OpRow} {l rest : List Byte} {i : Instr} :
    decodeRow row l = .ok i rest ↔ ∃ ops imm : List Byte, ops.length = row.count ∧
      imm.length = row.handler.immBytes ∧ l = ops ++ (imm ++ rest) ∧
      i = row.handler.instr (ops.getD 0 0) (ops.getD 1 0) (ops.getD 2 0) imm := by
  constructor
  · intro h
    have hrest : l.drop (row.count + row.handler.immBytes) = rest := by
      unfold decodeRow at h
      split_ifs at h
      exact (DecodeResult.ok.inj h).2
    obtain ⟨hlen, hi⟩ := decodeRow_ok h
    refine ⟨_, _, List.length_take_of_le (by omega), List.length_take_of_le ?_, ?_, hi⟩
    · rw [List.length_drop]; omega
    · rw [← hrest, ← List.drop_drop, List.take_append_drop, List.take_append_drop]
  · rintro ⟨ops, imm, hops, himm, rfl, rfl⟩
    have h1 : ¬ (ops ++ (imm ++ rest)).length < row.count := by rw [List.length_append]; omega
    have h2 : ¬ (imm ++ rest).length < row.handler.immBytes := by rw [List.length_append]; omega
    simp only [decodeRow, if_neg h1, List.take_left' hops, List.drop_left' hops, if_neg h2,
      List.take_left' himm, ← List.drop_drop, List.drop_left' himm]

/-! The encoder, by the handler. -/

theorem Instr.eq_halt_of_handler {i : Instr} (h : i.handler = none) : i = .halt := by
  cases i with
  | halt => rfl
  | _ => cases h

@[simp] theorem encode_halt (c : Config) : encode .halt c = [haltByte] := rfl

theorem encode_of_handler {i : Instr} {h : Handler} (hh : i.handler = some h) (c : Config) :
    encode i c = c.opcodeOf h ::
      ((i.operands ++ List.replicate maxOperands 0).take (c.countOf h) ++ i.imm) := by
  simp only [encode, hh]

theorem Instr.wf_iff {i : Instr} {h : Handler} (hh : i.handler = some h) (c : Config) :
    i.wf c = true ↔ i.imm.length = h.immBytes ∧ ∀ x ∈ i.operands.drop (c.countOf h), x = 0 := by
  simp [Instr.wf, Instr.immFits, Instr.operandsFit, hh]

/-- Every instruction is its handler's, at its operand bytes and its immediate. -/
theorem Instr.rebuilt : ∀ i : Instr, Laws.Rebuilt.Statement i
  | .vmaddbw o1 o2 o3 => Laws.Rebuilt.vmaddbw o1 o2 o3
  | .vmaddwd o1 o2 o3 => Laws.Rebuilt.vmaddwd o1 o2 o3
  | .vxor o1 o2 o3 => Laws.Rebuilt.vxor o1 o2 o3
  | .vor o1 o2 o3 => Laws.Rebuilt.vor o1 o2 o3
  | .vand o1 o2 o3 => Laws.Rebuilt.vand o1 o2 o3
  | .vxorc o1 o2 o3 => Laws.Rebuilt.vxorc o1 o2 o3
  | .vaddwu o1 o2 o3 => Laws.Rebuilt.vaddwu o1 o2 o3
  | .vaddb o1 o2 o3 => Laws.Rebuilt.vaddb o1 o2 o3
  | .vsubb o1 o2 o3 => Laws.Rebuilt.vsubb o1 o2 o3
  | .vaddw o1 o2 o3 => Laws.Rebuilt.vaddw o1 o2 o3
  | .vsubw o1 o2 o3 => Laws.Rebuilt.vsubw o1 o2 o3
  | .vaddd o1 o2 o3 => Laws.Rebuilt.vaddd o1 o2 o3
  | .vsubd o1 o2 o3 => Laws.Rebuilt.vsubd o1 o2 o3
  | .vaddq o1 o2 o3 => Laws.Rebuilt.vaddq o1 o2 o3
  | .vsubq o1 o2 o3 => Laws.Rebuilt.vsubq o1 o2 o3
  | .vmullm o1 o2 o3 => Laws.Rebuilt.vmullm o1 o2 o3
  | .vmov o1 o2 => Laws.Rebuilt.vmov o1 o2
  | .vloadi o1 imm => Laws.Rebuilt.vloadi o1 imm
  | .vsrld o1 o2 o3 => Laws.Rebuilt.vsrld o1 o2 o3
  | .vslld o1 o2 o3 => Laws.Rebuilt.vslld o1 o2 o3
  | .vshufb o1 o2 o3 => Laws.Rebuilt.vshufb o1 o2 o3
  | .vpermd o1 o2 o3 => Laws.Rebuilt.vpermd o1 o2 o3
  | .vcmpeqb o1 o2 o3 => Laws.Rebuilt.vcmpeqb o1 o2 o3
  | .nop => Laws.Rebuilt.nop
  | .halt => Laws.Rebuilt.halt

/-! A checked opcode table. -/

theorem mem_handlerAll (h : Handler) : h ∈ Handler.all := by
  cases h <;> decide

/-- What the configuration check says of the opcode table (R7, R31, R65), as far as decoding needs it. -/
theorem Config.wf_opmap {c : Config} (hc : c.wf = true) :
    c.opmap.length = 24 ∧ (∀ h, ∃ r ∈ c.opmap, r.handler = h) ∧ ∀ r ∈ c.opmap, r.count ≤ maxOperands := by
  simp only [Config.wf, Bool.and_eq_true, beq_iff_eq, List.all_eq_true, decide_eq_true_eq] at hc
  obtain ⟨⟨⟨-, hlen⟩, hall⟩, hrows⟩ := hc
  refine ⟨hlen, fun h => ?_, fun r hr => (hrows r hr).1⟩
  have hcount := hall h (mem_handlerAll h)
  exact List.mem_map.1 (List.count_pos_iff.1 (hcount ▸ Nat.one_pos))

theorem Config.findIdx_handler_lt {c : Config} (hc : c.wf = true) (h : Handler) :
    c.opmap.findIdx (·.handler == h) < 24 := by
  obtain ⟨hlen, hmem, -⟩ := Config.wf_opmap hc
  obtain ⟨r, hr, rfl⟩ := hmem h
  rw [← hlen]
  exact List.findIdx_lt_length_of_exists ⟨r, hr, beq_self_eq_true _⟩

/-- The index of a row of a checked table fits the opcode byte. -/
theorem Config.toNat_opcodeOf {c : Config} (hc : c.wf = true) (h : Handler) :
    (c.opcodeOf h).toNat = c.opmap.findIdx (·.handler == h) := by
  rw [Config.opcodeOf, List.findIdx_map, BitVec.toNat_ofNat]
  exact Nat.mod_eq_of_lt ((Config.findIdx_handler_lt hc h).trans (by decide))

theorem Config.opcodeOf_ne_haltByte {c : Config} (hc : c.wf = true) (h : Handler) : c.opcodeOf h ≠ haltByte :=
  ne_haltByte_of_lt (Config.toNat_opcodeOf hc h ▸ (Config.findIdx_handler_lt hc h).trans (by decide))

/-- In a checked table the opcode byte of a handler finds the handler's row, the one its count is read from. -/
theorem Config.rowOf_opcodeOf {c : Config} (hc : c.wf = true) (h : Handler) :
    ∃ row, c.rowOf (c.opcodeOf h) = some row ∧ row.handler = h ∧ row.count = c.countOf h ∧
      row.count ≤ maxOperands := by
  obtain ⟨-, hmem, hcounts⟩ := Config.wf_opmap hc
  obtain ⟨row, hrow⟩ : ∃ row, c.opmap.find? (·.handler == h) = some row := by
    obtain ⟨r, hr, rfl⟩ := hmem h
    exact Option.isSome_iff_exists.1 (List.find?_isSome.2 ⟨r, hr, beq_self_eq_true _⟩)
  have hhandler : row.handler = h := by simpa using List.find?_some hrow
  refine ⟨row, ?_, hhandler, ?_, hcounts row (List.mem_of_find?_eq_some hrow)⟩
  · rw [Config.rowOf, Config.toNat_opcodeOf hc h, ← List.find?_eq_getElem?_findIdx, hrow]
  · rw [Config.countOf, hrow]; rfl

/-! Decoding an encoding. -/

/-- Dropping defaults from the end of a list changes no look-up with that default. -/
theorem getD_take_of_drop_default {α : Type} {l : List α} {n : Nat} {d : α} (h : ∀ x ∈ l.drop n, x = d)
    (k : Nat) : (l.take n).getD k d = l.getD k d := by
  by_cases hk : k < n
  · simp [List.getD_eq_getElem?_getD, hk]
  · obtain ⟨j, rfl⟩ := Nat.exists_eq_add_of_le (Nat.le_of_not_lt hk)
    have hdrop : l.drop n = List.replicate _ d := List.eq_replicate_of_mem h
    rw [List.getD_eq_default _ _ ((List.length_take_le _ _).trans (by omega)),
      List.getD_eq_getElem?_getD, ← List.getElem?_drop, hdrop,
      List.getElem?_getD_replicate_default_eq]

/-- The operand bytes in the stream, a count of them, cut or filled up with 0, hold the instruction's own
operands when those beyond the count are 0 (log 13). -/
theorem getD_streamOperands {l : List Byte} {n : Nat} (h : ∀ x ∈ l.drop n, x = 0) (m k : Nat) :
    ((l ++ List.replicate m 0).take n).getD k 0 = l.getD k 0 := by
  have hdrop : ∀ x ∈ (l ++ List.replicate m 0).drop n, x = 0 := by
    intro x hx
    rw [List.drop_append, List.mem_append] at hx
    obtain hx | hx := hx
    · exact h x hx
    · exact List.eq_of_mem_replicate (List.mem_of_mem_drop hx)
  rw [getD_take_of_drop_default hdrop, ← getD_take_of_drop_default (n := l.length) (by simp), List.take_left]

/-- Settles O4: the halt sentinel is its one byte (R68); any other opcode byte finds its handler's row
(`Config.rowOf_opcodeOf`), which reads as many operand bytes as the encoder wrote, and the immediate. -/
theorem decodeEncodeRoundTrip : Obligations.DecodeEncodeRoundTrip := by
  intro c hc i hi rest
  cases hh : i.handler with
  | none => rw [Instr.eq_halt_of_handler hh]; exact decode_haltByte c rest
  | some h =>
    obtain ⟨himm, hops⟩ := (Instr.wf_iff hh c).1 hi
    obtain ⟨row, hrow, rfl, hcount, hmax⟩ := Config.rowOf_opcodeOf hc h
    rw [encode_of_handler hh, List.cons_append, List.append_assoc,
      decode_of_rowOf_some (Config.opcodeOf_ne_haltByte hc _) hrow, decodeRow_eq_ok_iff]
    refine ⟨_, i.imm, (List.length_take_of_le ?_).trans hcount.symm, himm, rfl, ?_⟩
    · rw [List.length_append, List.length_replicate]; omega
    · simp only [getD_streamOperands hops, Instr.rebuilt i _ hh]

/-! Encoding under the default table. -/

theorem config_countOf (h : Handler) : config.countOf h = h.arity := by
  cases h <;> decide

theorem Instr.length_operands {i : Instr} {h : Handler} (hh : i.handler = some h) :
    i.operands.length = h.arity := by
  cases i <;> cases hh <;> rfl

/-- The default table counts exactly the operands of each constructor, so none is cut and none is filled up. -/
theorem encode_default {i : Instr} {h : Handler} (hh : i.handler = some h) :
    encode i = config.opcodeOf h :: (i.operands ++ i.imm) := by
  rw [encode_of_handler hh, config_countOf, List.take_left' (Instr.length_operands hh)]

theorem Instr.wf_default_iff {i : Instr} {h : Handler} (hh : i.handler = some h) :
    i.wf = true ↔ i.imm.length = h.immBytes := by
  rw [Instr.wf_iff hh, config_countOf, ← Instr.length_operands hh, List.drop_length]
  simp

theorem Handler.operands_instr (h : Handler) (a b d : Byte) (imm : Block) :
    (h.instr a b d imm).operands = [a, b, d].take h.arity := by
  cases h <;> rfl

theorem Handler.imm_instr {h : Handler} {imm : Block} (himm : imm.length = h.immBytes) (a b d : Byte) :
    (h.instr a b d imm).imm = imm := by
  by_cases hv : h = .vloadi
  · subst hv; rfl
  · have hnil : imm = [] := List.eq_nil_of_length_eq_zero (himm.trans (if_neg hv))
    subst hnil
    cases h <;> rfl

theorem Handler.arity_le (h : Handler) : h.arity ≤ 3 := by
  cases h <;> decide

/-- A list of at most three bytes is the bytes looked up in it. -/
theorem take_getD_three {ops : List Byte} {n : Nat} (hlen : ops.length = n) (hn : n ≤ 3) :
    [ops.getD 0 0, ops.getD 1 0, ops.getD 2 0].take n = ops := by
  subst hlen
  match ops, hn with
  | [], _ | [_], _ | [_, _], _ | [_, _, _], _ => rfl

/-- Settles O5: the accepted bytes are the sentinel, or an opcode byte with the operand bytes and the
immediate its row reads (`decodeRow_eq_ok_iff`), and the encoder writes back each of them. -/
theorem encodeDecodeRoundTrip : Obligations.EncodeDecodeRoundTrip := by
  intro bytes rest i hdec
  cases bytes with
  | nil => cases hdec
  | cons op tl =>
    obtain ⟨rfl, rfl⟩ | ⟨row, hrow, hdr⟩ := decode_cons_ok hdec
    · rw [decode_haltByte] at hdec
      obtain ⟨-, rfl⟩ := DecodeResult.ok.inj hdec
      exact ⟨rfl, rfl⟩
    obtain ⟨ops, imm, hops, himm, rfl, rfl⟩ := decodeRow_eq_ok_iff.1 hdr
    obtain ⟨rfl, hcount⟩ := rowOf_cases hrow
    have hh := Handler.handler_instr row.handler (ops.getD 0 0) (ops.getD 1 0) (ops.getD 2 0) imm
    refine ⟨(Instr.wf_default_iff hh).2 (by rwa [Handler.imm_instr himm]), ?_⟩
    rw [encode_default hh, Handler.imm_instr himm, Handler.operands_instr,
      take_getD_three (hops.trans hcount) (Handler.arity_le _), List.cons_append, List.append_assoc]

/-! Printed words, illegal bytes, lengths. -/

/-- Settles O1: each word is one run of the decoder on the printed bytes. -/
theorem printedEncodingsDecode : Obligations.PrintedEncodingsDecode := by
  refine ⟨?_, ?_, ?_, ?_, ?_, ?_, ?_, ?_⟩ <;> decide

/-- Settles O2: such a byte is not the sentinel and has no row in the default table. -/
theorem illegalOpcodesAreRefused : Obligations.IllegalOpcodesAreRefused :=
  fun _ rest hlo hhi => decode_of_rowOf_none (ne_haltByte_of_lt (Nat.lt_succ_of_le hhi)) (rowOf_none hlo) rest

/-- A well-formed instruction has the length the default table gives its handler (R71). -/
theorem length_encode {i : Instr} {h : Handler} (hh : i.handler = some h) (hi : i.wf = true) :
    (encode i).length = config.lengthOf h := by
  rw [encode_default hh, List.length_cons, List.length_append, Instr.length_operands hh,
    (Instr.wf_default_iff hh).1 hi, Config.lengthOf, config_countOf]
  omega

/-- Settles O3: the opcode byte alone gives the length of its handler (`lengthByOpcode_opcodeOf`). -/
theorem instructionLengths : Obligations.InstructionLengths := by
  intro i hi
  cases hh : i.handler with
  | none => rw [Instr.eq_halt_of_handler hh]; rfl
  | some h =>
    have hne : i ≠ .halt := by rintro rfl; cases hh
    rw [if_neg hne, length_encode hh hi, encode_default hh, List.getD_cons_zero, lengthByOpcode_opcodeOf]

/-! The halt sentinel. -/

theorem fetch_of_haltByte {s : State} (hip : s.ip < config.memSize) (hop : s.opcodeByte = haltByte) :
    s.fetch = .ok .halt := by
  obtain ⟨tl, hstream, -⟩ := stream_cons hip
  rw [State.fetch, hstream, hop, decode_haltByte]

/-- Settles O15: the sentinel is fetched as the instruction that only sets STATUS (R83), and outside RUNNING
no step is defined. -/
theorem haltSentinelEndsTheRun : Obligations.HaltSentinelEndsTheRun := by
  refine ⟨encode_halt config, fun _ => rfl, fun s t hs h => ?_, fun s hrun hip hop => ?_⟩
  · rw [(step_eq_next h).1] at hs
    cases hs
  · exact step_of_fetch_ok hrun (fetch_of_haltByte hip hop)

end Sys2Proof.Machine
end

section
/-! SUPPORT and PROOFS. The sequencer (40_sequencer.md): what the fetch makes of the bytes at ip, when it
raises OutOfRange (R81, R82, R175), and what a running step is (R80 to R85). -/

namespace Sys2Proof.Machine

/-! Fetches outside MEM. -/

theorem fetch_of_decode_truncated {c : Config} {s : State} {start : Nat}
    (h : decode (s.stream c) c = .truncated start) :
    s.fetch c = .error { cause := .outOfRange, info := s.ip + start } := by
  rw [State.fetch, h]

theorem fetch_of_decode_ok {c : Config} {s : State} {i : Instr} {rest : List Byte}
    (h : decode (s.stream c) c = .ok i rest) : s.fetch c = .ok i := by
  rw [State.fetch, h]

/-- The operand fetch is the first check a row makes. -/
theorem decodeRow_of_short_operands {row : OpRow} {tl : List Byte} (h : tl.length < row.count) :
    decodeRow row tl = .truncated 1 :=
  if_pos h

/-- No byte stands at or above MEM_SIZE, so the opcode fetch fails at ip itself (R81). -/
theorem fetch_of_ip_outside {s : State} (hip : config.memSize ≤ s.ip) :
    s.fetch = .error { cause := .outOfRange, info := s.ip } :=
  fetch_of_decode_truncated (start := 0) (by rw [stream_nil hip]; rfl)

/-- The operand bytes a row counts are fetched as a whole, so the fetch fails at the first of them (R82). -/
theorem fetch_of_operands_outside {s : State} {row : OpRow} (hip : s.ip < config.memSize)
    (hrow : config.rowOf s.opcodeByte = some row) (hend : config.memSize < s.ip + 1 + row.count) :
    s.fetch = .error { cause := .outOfRange, info := s.ip + 1 } := by
  obtain ⟨tl, hstream, hlen⟩ := stream_cons hip
  obtain ⟨hop, -⟩ := rowOf_cases hrow
  have hshort : tl.length < row.count := by
    rw [hlen]
    omega
  apply fetch_of_decode_truncated
  rw [hstream, decode_of_rowOf_some (hop ▸ Config.opcodeOf_ne_haltByte config_wf _) hrow,
    decodeRow_of_short_operands hshort]

/-- Settles O17: the two fetch faults (`fetch_of_ip_outside`, `fetch_of_operands_outside`), each taken as R176
says. -/
theorem fetchesOutsideMemoryFault : Obligations.FetchesOutsideMemoryFault :=
  fun _ hrun =>
    ⟨fun hip => step_of_fetch_error hrun (fetch_of_ip_outside hip),
     fun _ hip hrow hend => step_of_fetch_error hrun (fetch_of_operands_outside hip hrow hend)⟩

/-! The instruction encoded at ip. -/

theorem Memory.bytes_add (m : Memory) (a n k : Nat) : m.bytes a (n + k) = m.bytes a n ++ m.bytes (a + n) k := by
  simp [Memory.bytes, List.range_add, Nat.add_assoc]

/-- The bytes that stand at ip are those memory reads there. -/
theorem State.HoldsAtIp.bytes_eq {s : State} {bs : List Byte} (h : s.HoldsAtIp bs) :
    s.mem.bytes s.ip bs.length = bs := by
  obtain ⟨-, hread⟩ := h
  refine List.ext_getElem (Memory.length_bytes ..) fun k _ hk => ?_
  simpa [Memory.bytes, hk] using hread k hk

/-- Bytes that stand at ip, no more than the longest instruction has, are where the fetched stream begins. -/
theorem State.HoldsAtIp.stream_eq_append {s : State} {bs : List Byte} (h : s.HoldsAtIp bs)
    (hlen : bs.length ≤ maxInstrBytes) : ∃ rest, s.stream = bs ++ rest := by
  have ⟨hin, _⟩ := h
  obtain ⟨k, hk⟩ : ∃ k, min maxInstrBytes (config.memSize - s.ip) = bs.length + k :=
    Nat.exists_eq_add_of_le (by omega)
  exact ⟨_, by rw [State.stream, hk, Memory.bytes_add, h.bytes_eq]⟩

theorem length_encode_le {i : Instr} (hi : i.wf = true) : (encode i).length ≤ maxInstrBytes := by
  cases hh : i.handler with
  | none => rw [Instr.eq_halt_of_handler hh]; decide
  | some h =>
    rw [length_encode hh hi]
    cases h <;> decide

/-- Settles O12: the fetched stream begins with the encoding, and decoding an encoding gives the instruction
back (O4), so it is the one the step runs. -/
theorem stepRunsTheDecodedInstruction : Obligations.StepRunsTheDecodedInstruction := by
  intro s i hrun hi hholds
  obtain ⟨rest, hstream⟩ := hholds.stream_eq_append (length_encode_le hi)
  have hdec : decode s.stream = .ok i rest := by
    rw [hstream]
    exact decodeEncodeRoundTrip config config_wf i hi rest
  exact step_of_fetch_ok hrun (fetch_of_decode_ok hdec)

/-! Totality. -/

/-- Settles O13: a fetch fault is a next state (R176), and every instruction answers one (`exec_is_next`). -/
theorem stepIsTotalWhileRunning : Obligations.StepIsTotalWhileRunning := by
  intro s hrun
  cases hf : s.fetch with
  | error r => exact ⟨_, step_of_fetch_error hrun hf⟩
  | ok i => rw [step_of_fetch_ok hrun hf]; exact exec_is_next i s

end Sys2Proof.Machine
end

section
/-! SUPPORT and PROOFS. The lane-wise instructions (41_lanewise.md): once for the two-block form they share,
the faults (R100, R175) and the next state; once for each block function, the lanes it leaves in the
destination (R101 to R106); and that xor with the same block twice undoes itself (R105). -/

namespace Sys2Proof.Machine

/-! Two source blocks to one, by a function of the blocks that raises nothing of its own. -/

/-- The state such an instruction of four bytes leaves: block `o1` holds `g` of the blocks `o2` and `o3`. -/
def State.combined (s : State) (g : Block → Block → Block) (o1 o2 o3 : Byte) : State :=
  s.wrote o1 (g (s.mem.bytes (config.blockOffset o2) 32) (s.mem.bytes (config.blockOffset o3) 32)) 4

section TwoBlockForm

variable {i : Instr} {h : Handler} {g : Block → Block → Block} {o1 o2 o3 : Byte} {s : State}

theorem twoBlockFaults_of_twoBlocks (hexec : exec i s = twoBlocks config h (fun b a => .ok (g b a)) o1 o2 o3 s) :
    TwoBlockFaults i s o1 o2 o3 := by
  simp only [TwoBlockFaults, SourceReadsFault, hexec]
  exact ⟨⟨twoBlocks_o2_faults, twoBlocks_o3_faults⟩, fun h2 h3 h1 => twoBlocks_o1_faults h2 h3 rfl h1⟩

/-- The frame is that of one block write, so only the result is left to show, of the one state it leaves. -/
theorem completes_of_twoBlocks (hexec : exec i s = twoBlocks config h (fun b a => .ok (g b a)) o1 o2 o3 s)
    (hlen : config.lengthOf h = 4) (h1 : config.blockFits o1 = true) (h2 : config.blockFits o2 = true)
    (h3 : config.blockFits o3 = true) {result : State → Prop} (hresult : result (s.combined g o1 o2 o3)) :
    Completes i s o1 4 result := by
  refine ⟨s.combined g o1 o2 o3, ?_, wrote_frame _ _ _ _, hresult⟩
  rw [hexec, twoBlocks_ok h2 h3 rfl h1, hlen]
  rfl

end TwoBlockForm

/-! The lanes of a written block, as bit vectors. -/

theorem reg_wrote_pack8 (s : State) (o1 : Byte) (f : Nat → Int) (len : Nat) {i : Nat} (hi : i < 32) :
    (s.wrote o1 (pack8 f) len).reg o1 i = BitVec.ofInt 8 (f i) :=
  BitVec.eq_of_toNat_eq (by rw [byte_wrote s o1 f len hi, BitVec.toNat_ofInt]; rfl)

theorem dword_wrote_pack32 (s : State) (o1 : Byte) (f : Nat → Int) (len : Nat) {k : Nat} (hk : k < 8) :
    (s.wrote o1 (pack32 .little f) len).dword o1 k = BitVec.ofInt 32 (f k) :=
  BitVec.eq_of_toNat_eq (by rw [dword_wrote s o1 f len hk, BitVec.toNat_ofInt]; rfl)

/-- Narrowing the exact value of a bit vector gives it back. -/
theorem ofInt_toNat {w : Nat} (x : BitVec w) : BitVec.ofInt w (x.toNat : Int) = x := by
  rw [BitVec.ofInt_natCast, BitVec.ofNat_toNat, BitVec.setWidth_eq]

/-! The lanes each block function gives. -/

section Lanes

variable {s : State} {o1 o2 o3 : Byte}

/-- Byte `i` of a block function that packs a value of the two bytes `i` is that value narrowed. -/
theorem reg_combined_of_pack8 (g : Block → Block → Block) (f : Nat → Nat → Int)
    (hg : ∀ b a, g b a = pack8 fun i => f (u8 a i) (u8 b i)) {i : Nat} (hi : i < 32) :
    (s.combined g o1 o2 o3).reg o1 i = BitVec.ofInt 8 (f (s.reg o3 i).toNat (s.reg o2 i).toNat) := by
  rw [State.combined, hg, reg_wrote_pack8 _ _ _ _ hi, u8_bytes _ _ hi, u8_bytes _ _ hi]

/-- R101: narrowing the exact sum is the sum modulo 2^8. -/
theorem reg_combined_addBytes {i : Nat} (hi : i < 32) :
    (s.combined addBytes o1 o2 o3).reg o1 i = s.reg o3 i + s.reg o2 i := by
  rw [reg_combined_of_pack8 addBytes (fun x y => x + y) (fun _ _ => rfl) hi, BitVec.ofInt_add,
    ofInt_toNat, ofInt_toNat]

/-- R102: narrowing the exact sum is the sum modulo 2^32. -/
theorem dword_combined_addDwords {k : Nat} (hk : k < 8) :
    (s.combined (addDwords .little) o1 o2 o3).dword o1 k = s.dword o3 k + s.dword o2 k := by
  rw [State.combined, addDwords, dword_wrote_pack32 _ _ _ _ hk, u32_bytes _ _ hk, u32_bytes _ _ hk,
    BitVec.ofInt_add, ofInt_toNat, ofInt_toNat]

theorem reg_combined_andBytes {i : Nat} (hi : i < 32) :
    (s.combined andBytes o1 o2 o3).reg o1 i = s.reg o3 i &&& s.reg o2 i := by
  rw [reg_combined_of_pack8 andBytes (fun x y => (x &&& y : Nat)) (fun _ _ => rfl) hi, ← BitVec.toNat_and,
    ofInt_toNat]

theorem reg_combined_orBytes {i : Nat} (hi : i < 32) :
    (s.combined orBytes o1 o2 o3).reg o1 i = s.reg o3 i ||| s.reg o2 i := by
  rw [reg_combined_of_pack8 orBytes (fun x y => (x ||| y : Nat)) (fun _ _ => rfl) hi, ← BitVec.toNat_or,
    ofInt_toNat]

theorem reg_combined_xorBytes {i : Nat} (hi : i < 32) :
    (s.combined xorBytes o1 o2 o3).reg o1 i = s.reg o3 i ^^^ s.reg o2 i := by
  rw [reg_combined_of_pack8 xorBytes (fun x y => (x ^^^ y : Nat)) (fun _ _ => rfl) hi, ← BitVec.toNat_xor,
    ofInt_toNat]

/-- R106: the exact values of two bytes are equal exactly when the bytes are. -/
theorem reg_combined_equalBytes {i : Nat} (hi : i < 32) :
    (s.combined equalBytes o1 o2 o3).reg o1 i = if s.reg o3 i = s.reg o2 i then 1 else 0 := by
  rw [reg_combined_of_pack8 equalBytes (fun x y => if x = y then 1 else 0) (fun _ _ => rfl) hi]
  simp only [BitVec.toNat_inj]
  split_ifs <;> rfl

end Lanes

/-! The obligations. -/

/-- Settles O23: the two-block form with `addBytes`. -/
theorem vaddbAddsBytes : Obligations.VaddbAddsBytes := fun o1 o2 o3 s =>
  ⟨rfl, twoBlockFaults_of_twoBlocks (g := addBytes) rfl, fun h1 h2 h3 =>
    completes_of_twoBlocks rfl (by decide) h1 h2 h3 fun _ => reg_combined_addBytes⟩

/-- Settles O24: the two-block form with `addDwords` in the default byte order. -/
theorem vadddAddsDwords : Obligations.VadddAddsDwords := fun o1 o2 o3 s =>
  ⟨rfl, twoBlockFaults_of_twoBlocks (g := addDwords .little) rfl, fun h1 h2 h3 =>
    completes_of_twoBlocks rfl (by decide) h1 h2 h3 fun _ => dword_combined_addDwords⟩

/-- Settles O25: the two-block form with `andBytes`, `orBytes` and `xorBytes`. -/
theorem logicActsOnEachBit : Obligations.LogicActsOnEachBit := fun o1 o2 o3 s =>
  ⟨rfl, rfl, rfl, twoBlockFaults_of_twoBlocks (g := andBytes) rfl, twoBlockFaults_of_twoBlocks (g := orBytes) rfl,
    twoBlockFaults_of_twoBlocks (g := xorBytes) rfl, fun h1 h2 h3 =>
    ⟨completes_of_twoBlocks rfl (by decide) h1 h2 h3 fun _ => reg_combined_andBytes,
     completes_of_twoBlocks rfl (by decide) h1 h2 h3 fun _ => reg_combined_orBytes,
     completes_of_twoBlocks rfl (by decide) h1 h2 h3 fun _ => reg_combined_xorBytes⟩⟩

/-- Settles O26: the two-block form with `equalBytes`. -/
theorem vcmpeqbGivesOneOrZero : Obligations.VcmpeqbGivesOneOrZero := fun o1 o2 o3 s =>
  ⟨rfl, twoBlockFaults_of_twoBlocks (g := equalBytes) rfl, fun h1 h2 h3 =>
    completes_of_twoBlocks rfl (by decide) h1 h2 h3 fun _ => reg_combined_equalBytes⟩

/-! Xor twice. -/

theorem WritesOnlyBlock.reg_of_ne {s t : State} {o1 : Byte} {len : Nat} (hw : WritesOnlyBlock s t o1 len)
    {j : Byte} (hj : j ≠ o1) {i : Nat} (hi : i < 32) : t.reg j i = s.reg j i := by
  obtain ⟨-, -, hframe⟩ := hw
  have := blockOffset_disjoint config hj
  exact hframe _ (by omega)

theorem completes_vxor {o1 o2 o3 : Byte} (s : State) (h1 : config.blockFits o1 = true)
    (h2 : config.blockFits o2 = true) (h3 : config.blockFits o3 = true) :
    Completes (.vxor o1 o2 o3) s o1 4 fun t => ∀ i, i < 32 → t.reg o1 i = s.reg o3 i ^^^ s.reg o2 i := by
  obtain ⟨-, -, -, -, -, -, hresults⟩ := logicActsOnEachBit o1 o2 o3 s
  obtain ⟨-, -, hxor⟩ := hresults h1 h2 h3
  exact hxor

/-- Settles O27: the first xor leaves block `o2` as it was, so the second meets the same bytes, and
`(x ^^^ y) ^^^ y = x`. -/
theorem vxorIsSelfInverse : Obligations.VxorIsSelfInverse := by
  intro d o1 o2 o3 s hd h1 h2 h3 hne
  obtain ⟨t, ht, hframe, hreg_t⟩ := completes_vxor s h1 h2 h3
  obtain ⟨u, hu, -, hreg_u⟩ := completes_vxor t hd h2 h1
  refine ⟨t, u, ht, hu, fun i hi => ?_⟩
  calc u.reg d i = t.reg o1 i ^^^ t.reg o2 i := hreg_u i hi
    _ = (s.reg o3 i ^^^ s.reg o2 i) ^^^ s.reg o2 i := by rw [hreg_t i hi, hframe.reg_of_ne hne.symm hi]
    _ = s.reg o3 i := xor_cancel_right _ _

end Sys2Proof.Machine
end

section
/-! SUPPORT and PROOFS. The dword shifts (42_shift.md): once for the block-and-count form they share, the
faults (R110, R175), the next state and its dwords; then, for each of the two, what a lane becomes and why a
count of 32 or more leaves 0 (R111, R112). -/

namespace Sys2Proof.Machine

/-! A source block and a count to one block. The count operand is never a block index (R110), so no
hypothesis about it stands below. -/

/-- The state such an instruction of four bytes leaves: block `o1` holds `g` of the block `o2` and the count. -/
def State.shifted (s : State) (g : Block → Nat → Block) (o1 o2 count : Byte) : State :=
  s.wrote o1 (g (s.mem.bytes (config.blockOffset o2) 32) count.toNat) 4

section BlockAndCountForm

variable {i : Instr} {h : Handler} {g : Block → Nat → Block} {o1 o2 count : Byte} {s : State}

theorem shiftFaults_of_blockAndCount (hexec : exec i s = blockAndCount config h g o1 o2 count s) :
    ShiftFaults i s o1 o2 := by
  simp only [ShiftFaults, hexec]
  exact ⟨blockAndCount_o2_faults rfl, blockAndCount_o1_faults rfl⟩

/-- The frame is that of one block write, so only the result is left to show, of the one state it leaves. -/
theorem completes_of_blockAndCount (hexec : exec i s = blockAndCount config h g o1 o2 count s)
    (hlen : config.lengthOf h = 4) (h1 : config.blockFits o1 = true) (h2 : config.blockFits o2 = true)
    {result : State → Prop} (hresult : result (s.shifted g o1 o2 count)) :
    Completes i s o1 4 result := by
  refine ⟨s.shifted g o1 o2 count, ?_, wrote_frame _ _ _ _, hresult⟩
  rw [hexec, blockAndCount_ok rfl h2 h1, hlen]
  rfl

/-- Dword `k` of a block function that packs a value of the dword `k` and the count is that value modulo
2^32. -/
theorem toNat_dword_shifted_of_pack32 (f : Nat → Nat → Nat)
    (hg : ∀ a c, g a c = pack32 .little fun k => f (u32 .little a k) c) {k : Nat} (hk : k < 8) :
    ((s.shifted g o1 o2 count).dword o1 k).toNat = f (s.dword o2 k).toNat count.toNat % 2 ^ 32 := by
  rw [State.shifted, hg, dword_wrote_pack32 _ _ _ _ hk, u32_bytes _ _ hk, BitVec.ofInt_natCast, BitVec.toNat_ofNat]

end BlockAndCountForm

/-! The lanes each shift gives. -/

section Lanes

variable {s : State} {o1 o2 count : Byte} {k : Nat}

theorem toNat_dword_shifted_left (hk : k < 8) :
    ((s.shifted (shiftLeftDwords .little) o1 o2 count).dword o1 k).toNat =
      (s.dword o2 k).toNat * 2 ^ count.toNat % 2 ^ 32 :=
  toNat_dword_shifted_of_pack32 (fun x c => x * 2 ^ c) (fun _ _ => rfl) hk

/-- R111: for a count of 32 or more, 2^32 divides x * 2^c. -/
theorem dword_shifted_left_eq_zero (hk : k < 8) (hcount : 32 ≤ count.toNat) :
    (s.shifted (shiftLeftDwords .little) o1 o2 count).dword o1 k = 0 := by
  apply BitVec.eq_of_toNat_eq
  have hdvd : 2 ^ 32 ∣ (s.dword o2 k).toNat * 2 ^ count.toNat := (pow_dvd_pow 2 hcount).mul_left _
  rw [toNat_dword_shifted_left hk, Nat.mod_eq_zero_of_dvd hdvd]
  rfl

/-- R112: the mask to 32 bits changes nothing for a right shift. -/
theorem toNat_dword_shifted_right (hk : k < 8) :
    ((s.shifted (shiftRightDwords .little) o1 o2 count).dword o1 k).toNat =
      (s.dword o2 k).toNat / 2 ^ count.toNat := by
  have hlt : (s.dword o2 k).toNat / 2 ^ count.toNat < 2 ^ 32 :=
    (Nat.div_le_self _ _).trans_lt (s.dword o2 k).isLt
  rw [toNat_dword_shifted_of_pack32 (g := shiftRightDwords .little) (fun x c => x / 2 ^ c) (fun _ _ => rfl) hk,
    Nat.mod_eq_of_lt hlt]

/-- R112: for a count of 32 or more, x < 2^32 ≤ 2^c. -/
theorem dword_shifted_right_eq_zero (hk : k < 8) (hcount : 32 ≤ count.toNat) :
    (s.shifted (shiftRightDwords .little) o1 o2 count).dword o1 k = 0 := by
  apply BitVec.eq_of_toNat_eq
  have hlt : (s.dword o2 k).toNat < 2 ^ count.toNat :=
    (s.dword o2 k).isLt.trans_le (Nat.pow_le_pow_right (by decide) hcount)
  rw [toNat_dword_shifted_right hk, Nat.div_eq_of_lt hlt]
  rfl

end Lanes

/-! The obligations. -/

/-- Settles O28: the block-and-count form with `shiftLeftDwords` in the default byte order. -/
theorem vslldShiftsLeft : Obligations.VslldShiftsLeft := fun o1 o2 o3 s =>
  ⟨rfl, shiftFaults_of_blockAndCount (g := shiftLeftDwords .little) rfl, fun h1 h2 =>
    completes_of_blockAndCount rfl (by decide) h1 h2 fun _ hk =>
      ⟨toNat_dword_shifted_left hk, dword_shifted_left_eq_zero hk⟩⟩

/-- Settles O29: the block-and-count form with `shiftRightDwords` in the default byte order. -/
theorem vsrldShiftsRight : Obligations.VsrldShiftsRight := fun o1 o2 o3 s =>
  ⟨rfl, shiftFaults_of_blockAndCount (g := shiftRightDwords .little) rfl, fun h1 h2 =>
    completes_of_blockAndCount rfl (by decide) h1 h2 fun _ hk =>
      ⟨toNat_dword_shifted_right hk, dword_shifted_right_eq_zero hk⟩⟩

end Sys2Proof.Machine
end

section
/-! SUPPORT and PROOFS. The multiply-adds (43_multiply_add.md): the signed lanes of a source block as signed
readings of bit vectors (R9), a written block's words, and the sums of products each of the two block functions
leaves in the destination (R121, R122). -/

namespace Sys2Proof.Machine

/-! The signed lanes of a source block. -/

theorem s8_bytes (s : State) (o : Byte) {i : Nat} (hi : i < 32) :
    s8 (s.mem.bytes (config.blockOffset o) 32) i = (s.reg o i).toInt := by
  rw [s8, u8_bytes s o hi, sgn_eq_toInt (by decide)]

theorem s16_bytes (s : State) (o : Byte) {k : Nat} (hk : k < 16) :
    s16 .little (s.mem.bytes (config.blockOffset o) 32) k = (s.word o k).toInt := by
  rw [s16, u16_bytes s o hk, sgn_eq_toInt (by decide)]

/-! The words of a written block, as bit vectors. -/

theorem word_wrote_pack16 (s : State) (o1 : Byte) (f : Nat → Int) (len : Nat) {k : Nat} (hk : k < 16) :
    (s.wrote o1 (pack16 .little f) len).word o1 k = BitVec.ofInt 16 (f k) :=
  BitVec.eq_of_toNat_eq (by rw [word_wrote s o1 f len hk, BitVec.toNat_ofInt]; rfl)

/-! The lanes each multiply-add gives. Output lane `k` takes the input lanes `2k` and `2k + 1`, which lie in
the block because `k` is below half the number of input lanes. -/

section Lanes

variable {s : State} {o1 o2 o3 : Byte}

/-- R121: packing narrows the exact sum to 32 bits. -/
theorem dword_combined_maddWords {k : Nat} (hk : k < 8) :
    (s.combined (maddWords .little) o1 o2 o3).dword o1 k = BitVec.ofInt 32
      ((s.word o3 (2 * k)).toInt * (s.word o2 (2 * k)).toInt +
       (s.word o3 (2 * k + 1)).toInt * (s.word o2 (2 * k + 1)).toInt) := by
  have heven : 2 * k < 16 := by omega
  have hodd : 2 * k + 1 < 16 := by omega
  rw [State.combined, maddWords, dword_wrote_pack32 _ _ _ _ hk, s16_bytes s o3 heven, s16_bytes s o2 heven,
    s16_bytes s o3 hodd, s16_bytes s o2 hodd]

/-- R122: both blocks are read signed, and packing narrows the exact sum to 16 bits. -/
theorem word_combined_maddBytes {k : Nat} (hk : k < 16) :
    (s.combined (maddBytes .little) o1 o2 o3).word o1 k = BitVec.ofInt 16
      ((s.reg o3 (2 * k)).toInt * (s.reg o2 (2 * k)).toInt +
       (s.reg o3 (2 * k + 1)).toInt * (s.reg o2 (2 * k + 1)).toInt) := by
  have heven : 2 * k < 32 := by omega
  have hodd : 2 * k + 1 < 32 := by omega
  rw [State.combined, maddBytes, word_wrote_pack16 _ _ _ _ hk, s8_bytes s o3 heven, s8_bytes s o2 heven,
    s8_bytes s o3 hodd, s8_bytes s o2 hodd]

end Lanes

/-! The obligations. -/

/-- Settles O30: the two-block form with `maddWords` in the default byte order. -/
theorem vmaddwdMultipliesAndAddsWords : Obligations.VmaddwdMultipliesAndAddsWords := fun o1 o2 o3 s =>
  ⟨rfl, twoBlockFaults_of_twoBlocks (g := maddWords .little) rfl, fun h1 h2 h3 =>
    completes_of_twoBlocks rfl (by decide) h1 h2 h3 fun _ => dword_combined_maddWords⟩

/-- Settles O31: the two-block form with `maddBytes` in the default byte order. -/
theorem vmaddbwMultipliesAndAddsBytes : Obligations.VmaddbwMultipliesAndAddsBytes := fun o1 o2 o3 s =>
  ⟨rfl, twoBlockFaults_of_twoBlocks (g := maddBytes .little) rfl, fun h1 h2 h3 =>
    completes_of_twoBlocks rfl (by decide) h1 h2 h3 fun _ => word_combined_maddBytes⟩

end Sys2Proof.Machine
end

section
/-! SUPPORT and PROOFS. Permute and shuffle (44_permute_shuffle.md): which selector lane VPERMD's own check
reports and when it reports none, so that VPERMD is then a two-block form that raises nothing of its own
(R130, R175); and the lanes each of the two block functions leaves in the destination (R130, R131). -/

namespace Sys2Proof.Machine

/-! The selector check. -/

theorem toNat_eq_zeroSelector_iff (x : BitVec 32) : x.toNat = zeroSelector ↔ x = 0xFFFFFFFF :=
  BitVec.toNat_inj (y := 0xFFFFFFFF)

theorem badSelector_eq_false_iff (x : BitVec 32) : badSelector x.toNat = false ↔ goodSelector x := by
  simp [badSelector, goodSelector, toNat_eq_zeroSelector_iff, imp_iff_not_or]

theorem badSelector_eq_true_iff (x : BitVec 32) : badSelector x.toNat = true ↔ ¬ goodSelector x := by
  rw [← badSelector_eq_false_iff, Bool.not_eq_false]

/-- The check of a block searches its dwords from lane 0 on. -/
theorem firstBadSelector_bytes (s : State) (o : Byte) :
    firstBadSelector .little (s.mem.bytes (config.blockOffset o) 32) =
      ((List.range 8).find? fun k => badSelector (s.dword o k).toNat).map fun k => (s.dword o k).toNat := by
  have hlanes : (List.range 8).map (u32 .little (s.mem.bytes (config.blockOffset o) 32)) =
      (List.range 8).map fun k => (s.dword o k).toNat :=
    List.map_congr_left fun k hk => u32_bytes s o (List.mem_range.1 hk)
  rw [firstBadSelector, hlanes, List.find?_map]
  rfl

section Vpermd

variable {s : State} {o1 o2 o3 : Byte}

theorem firstBadSelector_eq_none (hgood : ∀ k, k < 8 → goodSelector (s.dword o2 k)) :
    firstBadSelector .little (s.mem.bytes (config.blockOffset o2) 32) = none := by
  rw [firstBadSelector_bytes, Option.map_eq_none_iff, List.find?_range_eq_none]
  intro k hk
  simpa [badSelector_eq_false_iff] using hgood k hk

theorem firstBadSelector_eq_some {k : Nat} (hk : k < 8) (hgood : ∀ j, j < k → goodSelector (s.dword o2 j))
    (hbad : ¬ goodSelector (s.dword o2 k)) :
    firstBadSelector .little (s.mem.bytes (config.blockOffset o2) 32) = some (s.dword o2 k).toNat := by
  have hfind : ((List.range 8).find? fun k => badSelector (s.dword o2 k).toNat) = some k := by
    rw [List.find?_range_eq_some]
    refine ⟨(badSelector_eq_true_iff _).2 hbad, List.mem_range.2 hk, fun j hj => ?_⟩
    simpa [badSelector_eq_false_iff] using hgood j hj
  rw [firstBadSelector_bytes, hfind]
  rfl

/-! VPERMD as a two-block form: by default its selector is the block of o2. -/

theorem exec_vpermd (o1 o2 o3 : Byte) (s : State) :
    exec (.vpermd o1 o2 o3) s = twoBlocks config .vpermd (permuteChecked .little) o1 o2 o3 s := rfl

theorem sourceReadsFault_vpermd (o1 o2 o3 : Byte) (s : State) : SourceReadsFault (.vpermd o1 o2 o3) s o2 o3 := by
  simp only [SourceReadsFault, exec_vpermd]
  exact ⟨twoBlocks_o2_faults, twoBlocks_o3_faults⟩

theorem exec_vpermd_of_bad {k : Nat} (h2 : config.blockFits o2 = true) (h3 : config.blockFits o3 = true)
    (hk : k < 8) (hgood : ∀ j, j < k → goodSelector (s.dword o2 j)) (hbad : ¬ goodSelector (s.dword o2 k)) :
    exec (.vpermd o1 o2 o3) s = .next (s.faulted .permuteIndex (s.dword o2 k).toNat) := by
  have hcheck : permuteChecked .little (s.mem.bytes (config.blockOffset o2) 32)
      (s.mem.bytes (config.blockOffset o3) 32) =
      .error { cause := .permuteIndex, info := (s.dword o2 k).toNat } := by
    rw [permuteChecked, firstBadSelector_eq_some hk hgood hbad]
  rw [exec_vpermd, twoBlocks_own_fault h2 h3 hcheck]
  rfl

/-- With good selectors only, the check drops out and the form raises nothing of its own. -/
theorem exec_vpermd_of_good (h2 : config.blockFits o2 = true) (h3 : config.blockFits o3 = true)
    (hgood : ∀ k, k < 8 → goodSelector (s.dword o2 k)) :
    exec (.vpermd o1 o2 o3) s =
      twoBlocks config .vpermd (fun sel data => .ok (permuteDwords .little sel data)) o1 o2 o3 s := by
  simp only [exec_vpermd, twoBlocks, readBlock_of_fits h2, readBlock_of_fits h3, bind, Except.bind, permuteChecked,
    firstBadSelector_eq_none hgood]

end Vpermd

/-! The lanes of the result. -/

section Lanes

variable {s : State} {o1 o2 o3 : Byte}

/-- R130: a good selector is the zero selector or names a lane inside the data block. -/
theorem dword_combined_permuteDwords {k : Nat} (hk : k < 8) (hgood : goodSelector (s.dword o2 k)) :
    (s.combined (permuteDwords .little) o1 o2 o3).dword o1 k =
      if s.dword o2 k = 0xFFFFFFFF then 0 else s.dword o3 (s.dword o2 k).toNat := by
  rw [State.combined, permuteDwords, dword_wrote_pack32 _ _ _ _ hk, u32_bytes _ _ hk]
  simp only [toNat_eq_zeroSelector_iff]
  split_ifs with hzero
  · rfl
  · have hlane : (s.dword o2 k).toNat < 8 := Nat.lt_succ_of_le (hgood.resolve_left hzero)
    rw [u32_bytes _ _ hlane, ofInt_toNat]

theorem half_add_lt (mode : ShufHalfMode) {i n : Nat} (hi : i < 32) (hn : n < 16) :
    ShufHalfMode.half mode i + n < 32 := by
  cases mode <;> simp only [ShufHalfMode.half] <;> omega

/-- The low nibble of a byte, R131's mask with 0x0F, is its remainder modulo 16. -/
theorem and_lowNibble (n : Nat) : n &&& 0x0F = n % 16 := Nat.and_two_pow_sub_one_eq_mod n 4

/-- R131, for both half modes: the data is the block of o2, the mask that of o3. -/
theorem reg_combined_shuffleBytes (mode : ShufHalfMode) {i : Nat} (hi : i < 32) :
    (s.combined (fun data mask => shuffleBytes mode mask data) o1 o2 o3).reg o1 i =
      if 0x80 ≤ (s.reg o3 i).toNat then 0 else s.reg o2 (ShufHalfMode.half mode i + (s.reg o3 i).toNat % 16) := by
  rw [State.combined, shuffleBytes, reg_wrote_pack8 _ _ _ _ hi, u8_bytes _ _ hi, and_lowNibble]
  split_ifs with hzero
  · rfl
  · rw [u8_bytes _ _ (half_add_lt mode hi (Nat.mod_lt _ (by decide))), ofInt_toNat]

end Lanes

/-! VSHUFB as a two-block form: by default its mask is the block of o3. -/

theorem exec_vshufb (o1 o2 o3 : Byte) (s : State) :
    exec (.vshufb o1 o2 o3) s =
      twoBlocks config .vshufb (fun data mask => .ok (shuffleBytes .low mask data)) o1 o2 o3 s := rfl

/-- The half mode reaches VSHUFB's result through the block function alone. -/
theorem execIn_vshufb (mode : ShufHalfMode) {o1 o2 o3 : Byte} (s : State) (h1 : config.blockFits o1 = true)
    (h2 : config.blockFits o2 = true) (h3 : config.blockFits o3 = true) :
    execIn { config with shufHalfMode := mode } (.vshufb o1 o2 o3) s =
      .next (s.combined (fun data mask => shuffleBytes mode mask data) o1 o2 o3) :=
  twoBlocks_ok (c := { config with shufHalfMode := mode }) h2 h3 rfl h1

/-! The obligations. -/

/-- Settles O32: a bad selector lane is reported between the reads and the write; with good ones only, it is
the two-block form with `permuteDwords`. -/
theorem vpermdPermutesDwords : Obligations.VpermdPermutesDwords := by
  intro o1 o2 o3 s
  refine ⟨rfl, sourceReadsFault_vpermd o1 o2 o3 s, fun h2 h3 =>
    ⟨fun _ => exec_vpermd_of_bad h2 h3, fun hgood => ?_⟩⟩
  have hexec := exec_vpermd_of_good (o1 := o1) h2 h3 hgood
  obtain ⟨-, hwrite⟩ := twoBlockFaults_of_twoBlocks hexec
  exact ⟨hwrite h2 h3, fun h1 => completes_of_twoBlocks hexec (by decide) h1 h2 h3 fun k hk =>
    dword_combined_permuteDwords hk (hgood k hk)⟩

/-- Settles O33: the two-block form with `shuffleBytes`, in mode low and in mode local. -/
theorem vshufbShufflesBytes : Obligations.VshufbShufflesBytes := by
  intro o1 o2 o3 s
  have hexec := exec_vshufb o1 o2 o3 s
  refine ⟨rfl, twoBlockFaults_of_twoBlocks hexec, fun h1 h2 h3 => ⟨?low, ?localHalf⟩⟩
  case low =>
    refine completes_of_twoBlocks hexec (by decide) h1 h2 h3 fun i hi => ?_
    simpa only [ShufHalfMode.half, Nat.zero_add] using reg_combined_shuffleBytes .low hi
  case localHalf =>
    exact ⟨_, execIn_vshufb .localHalf s h1 h2 h3, wrote_frame _ _ _ _, fun _ =>
      reg_combined_shuffleBytes .localHalf⟩

end Sys2Proof.Machine
end

section
/-! SUPPORT and PROOFS. Literal load (45_literal_load.md): the immediate fetch, the last check of a fetch (R82,
R140, R175), and the write of the immediate to the block its operand names (R140). -/

namespace Sys2Proof.Machine

/-! An immediate outside MEM. -/

/-- The immediate fetch is the check a row makes after its operand bytes. -/
theorem decodeRow_of_short_immediate {row : OpRow} {tl : List Byte} (hops : row.count ≤ tl.length)
    (himm : (tl.drop row.count).length < row.handler.immBytes) : decodeRow row tl = .truncated (1 + row.count) := by
  rw [decodeRow, if_neg (Nat.not_lt.2 hops), if_pos himm]

/-- The immediate is fetched as a whole once the operand bytes are, so the fetch fails at its first byte. -/
theorem fetch_of_immediate_outside {s : State} {row : OpRow} (hrow : config.rowOf s.opcodeByte = some row)
    (hops : s.ip + 1 + row.count ≤ config.memSize)
    (hend : config.memSize < s.ip + 1 + row.count + row.handler.immBytes) :
    s.fetch = .error { cause := .outOfRange, info := s.ip + (1 + row.count) } := by
  obtain ⟨tl, hstream, hlen⟩ := stream_cons (s := s) (by omega)
  obtain ⟨hop, hcount⟩ := rowOf_cases hrow
  have harity := Handler.arity_le row.handler
  have hoperands : row.count ≤ tl.length := by omega
  have himmediate : (tl.drop row.count).length < row.handler.immBytes := by
    rw [List.length_drop]
    omega
  apply fetch_of_decode_truncated
  rw [hstream, decode_of_rowOf_some (hop ▸ Config.opcodeOf_ne_haltByte config_wf _) hrow,
    decodeRow_of_short_immediate hoperands himmediate]

theorem rowOf_vloadi : config.rowOf 0x11 = some { handler := .vloadi, count := 1 } := by decide

/-! An immediate to a block. -/

theorem encode_vloadi (o1 : Byte) (imm : Block) : encode (.vloadi o1 imm) = [0x11, o1] ++ imm := rfl

theorem exec_vloadi_of_not_fits {o1 : Byte} (imm : Block) (s : State) (h1 : config.blockFits o1 = false) :
    exec (.vloadi o1 imm) s = .next (s.faulted .outOfRange (config.blockOffset o1)) :=
  immediate_o1_faults h1

theorem exec_vloadi_of_fits {o1 : Byte} (imm : Block) (s : State) (h1 : config.blockFits o1 = true) :
    exec (.vloadi o1 imm) s = .next (s.wrote o1 imm 34) :=
  immediate_ok h1

/-- Settles O34: a fetched VLOADI is one block write of its immediate, or that write's fault; an immediate that
is not in MEM fails the fetch at the byte after the operand (`fetch_of_immediate_outside`). -/
theorem vloadiLoadsTheImmediate : Obligations.VloadiLoadsTheImmediate := by
  refine ⟨fun o1 imm s hlen => ⟨encode_vloadi o1 imm, exec_vloadi_of_not_fits imm s, fun h1 => ?completes⟩,
    fun s hrun hops hop hend => ?immediateOutside⟩
  case completes =>
    exact ⟨s.wrote o1 imm 34, exec_vloadi_of_fits imm s h1, wrote_frame _ _ _ _, fun _ => reg_wrote _ _ _ hlen⟩
  case immediateOutside =>
    have hrow : config.rowOf s.opcodeByte = some { handler := .vloadi, count := 1 } := hop ▸ rowOf_vloadi
    exact step_of_fetch_error hrun (fetch_of_immediate_outside hrow hops hend)

end Sys2Proof.Machine
end

section
/-! SUPPORT and PROOFS. The inert instructions (46_inert.md): an opcode with its operand bytes inside MEM is fetched
as its handler's instruction (R82), and an inert handler's whole effect is that ip steps over those bytes (R150). -/

namespace Sys2Proof.Machine

/-! A row whose bytes lie inside MEM. -/

/-- The two checks of a row are the only ones: bytes enough for the operands and the immediate are decoded. -/
theorem decodeRow_of_enough {row : OpRow} {tl : List Byte} (h : row.count + row.handler.immBytes ≤ tl.length) :
    ∃ i rest, decodeRow row tl = .ok i rest ∧ i.handler = some row.handler := by
  have hops : ¬ tl.length < row.count := by omega
  have himm : ¬ (tl.drop row.count).length < row.handler.immBytes := by rw [List.length_drop]; omega
  rw [decodeRow, if_neg hops, if_neg himm]
  exact ⟨_, _, rfl, Handler.handler_instr ..⟩

/-- The bytes after the opcode byte are at most those of the longest instruction, VLOADI (R61, R71). -/
theorem Handler.arity_add_immBytes_le (h : Handler) : h.arity + h.immBytes ≤ 33 := by
  cases h <;> decide

/-- With its operand bytes and its immediate inside MEM, a row is fetched as its handler's instruction. -/
theorem fetch_of_row_inside {s : State} {row : OpRow} (hrow : config.rowOf s.opcodeByte = some row)
    (hend : s.ip + 1 + row.count + row.handler.immBytes ≤ config.memSize) :
    ∃ i, s.fetch = .ok i ∧ i.handler = some row.handler := by
  obtain ⟨tl, hstream, hlen⟩ := stream_cons (s := s) (by omega)
  obtain ⟨hop, hcount⟩ := rowOf_cases hrow
  have hlongest := Handler.arity_add_immBytes_le row.handler
  obtain ⟨i, rest, hdec, hh⟩ := decodeRow_of_enough (row := row) (tl := tl) (by omega)
  refine ⟨i, fetch_of_decode_ok (rest := rest) ?_, hh⟩
  rw [hstream, decode_of_rowOf_some (hop ▸ Config.opcodeOf_ne_haltByte config_wf _) hrow, hdec]

/-! Inert handlers. -/

theorem immBytes_of_inert {hd : Handler} (hi : hd.inert = true) : hd.immBytes = 0 := by
  cases hd with
  | vloadi => cases hi
  | _ => rfl

/-- An inert instruction completes in every state, whatever its operands name: ip steps over the opcode byte and the
operand bytes (R150). -/
theorem exec_inert {i : Instr} {hd : Handler} (hh : i.handler = some hd) (hi : hd.inert = true) (s : State) :
    exec i s = .next { s with ip := s.ip + (1 + i.operands.length) } := by
  have hlength : config.lengthOf hd = 1 + i.operands.length := by
    rw [Config.lengthOf, config_countOf, immBytes_of_inert hi, Instr.length_operands hh, Nat.add_zero]
  rw [exec_eq_execIn, execIn_inert hh hi, hlength]

/-- A step at an inert opcode whose operand bytes lie inside MEM moves ip over them (R82, R150). -/
theorem step_of_inert_row_inside {s : State} {row : OpRow} (hrun : s.status = .running)
    (hrow : config.rowOf s.opcodeByte = some row) (hi : row.handler.inert = true)
    (hend : s.ip + 1 + row.count ≤ config.memSize) :
    step s = .next { s with ip := s.ip + 1 + row.count } := by
  obtain ⟨i, hf, hh⟩ := fetch_of_row_inside hrow (by rwa [immBytes_of_inert hi])
  obtain ⟨-, hcount⟩ := rowOf_cases hrow
  rw [step_of_fetch_ok hrun hf, exec_inert hh hi, Instr.length_operands hh, ← hcount, ← Nat.add_assoc]

/-- Settles O35: a step faults at ip or at the operand bytes (O17), or steps over the row; and each of the eleven
meanings is `exec_inert` at its operand bytes. -/
theorem inertInstructionsOnlyAdvanceIp : Obligations.InertInstructionsOnlyAdvanceIp := by
  refine ⟨fun s hrun => ?step, fun o1 o2 o3 s => ?meanings⟩
  case step =>
    obtain ⟨hopcodeOutside, hoperandsOutside⟩ := fetchesOutsideMemoryFault s hrun
    refine ⟨hopcodeOutside, fun row hip hrow hi => ?_⟩
    split_ifs with hend
    · exact hoperandsOutside row hip hrow hend
    · exact step_of_inert_row_inside hrun hrow hi (Nat.le_of_not_lt hend)
  case meanings =>
    refine ⟨?_, ?_, ?_, ?_, ?_, ?_, ?_, ?_, ?_, ?_, ?_⟩ <;> exact ⟨rfl, exec_inert rfl rfl s⟩

end Sys2Proof.Machine
end

section
/-! SUPPORT and PROOFS. Runs (40_sequencer.md R85 to R87, 70_reset_and_hazards.md R195): a step under any configuration
ends the run or moves ip forward from a place inside MEM, so the bytes of MEM from ip on bound the steps of a run. -/

namespace Sys2Proof.Machine

/-! The machine at the default configuration. -/

theorem step_eq_stepIn : step = stepIn config := by
  have hexec : exec = execIn config := funext₂ exec_eq_execIn
  funext s
  rw [step, stepIn, hexec]

/-- Settles O8: each arm of `exec` is that of `execIn` at the defaults, and the two steps differ in it alone. -/
theorem execIsTheDefaultConfiguration : Obligations.ExecIsTheDefaultConfiguration :=
  ⟨exec_eq_execIn, congrFun step_eq_stepIn⟩

/-- Settles O14: the test of STATUS comes before the fetch (R85, log 6). -/
theorem stepStopsUnlessRunning : Obligations.StepStopsUnlessRunning :=
  fun _ => step_of_not_running

/-! Running a step repeatedly. -/

section RunWith

variable {stepOnce : State → Result}

theorem runWith_succ_of_next {s t : State} (hrun : s.status = .running) (h : stepOnce s = .next t) (n : Nat) :
    runWith stepOnce (n + 1) s = runWith stepOnce n t := by
  rw [runWith, if_pos hrun, h]

/-- Where no step is made, a run of any length stays. -/
theorem runWith_of_stuck {s : State} (h : s.status = .running → ∀ t, stepOnce s ≠ .next t) (n : Nat) :
    runWith stepOnce n s = s := by
  cases n with
  | zero => rfl
  | succ n =>
    by_cases hrun : s.status = .running
    · rw [runWith, if_pos hrun]
      cases hs : stepOnce s with
      | next t => exact absurd hs (h hrun t)
      | fault _ | refused _ => rfl
    · rw [runWith, if_neg hrun]

theorem runWith_of_not_running {s : State} (h : s.status ≠ .running) (n : Nat) : runWith stepOnce n s = s :=
  runWith_of_stuck (fun hrun => absurd hrun h) n

/-- A longer run is a shorter one continued. -/
theorem runWith_add (n k : Nat) (s : State) :
    runWith stepOnce (n + k) s = runWith stepOnce k (runWith stepOnce n s) := by
  induction n generalizing s with
  | zero => rw [Nat.zero_add, runWith]
  | succ n ih =>
    by_cases h : s.status = .running ∧ ∃ t, stepOnce s = .next t
    · obtain ⟨hrun, t, ht⟩ := h
      rw [Nat.succ_add, runWith_succ_of_next hrun ht, runWith_succ_of_next hrun ht, ih]
    · have hstuck : s.status = .running → ∀ t, stepOnce s ≠ .next t := fun hrun t ht => h ⟨hrun, t, ht⟩
      simp only [runWith_of_stuck hstuck]

/-- What every step keeps, a run keeps. -/
theorem runWith_keeps {P : State → Prop} (hstep : ∀ s t, P s → stepOnce s = .next t → P t) (n : Nat) {s : State}
    (hs : P s) : P (runWith stepOnce n s) := by
  induction n generalizing s with
  | zero => exact hs
  | succ n ih =>
    by_cases h : s.status = .running ∧ ∃ t, stepOnce s = .next t
    · obtain ⟨hrun, t, ht⟩ := h
      rw [runWith_succ_of_next hrun ht]
      exact ih (hstep s t hs ht)
    · rwa [runWith_of_stuck fun hrun t ht => h ⟨hrun, t, ht⟩]

end RunWith

/-! Every run ends. -/

theorem Status.ended_iff (x : Status) : x.ended = true ↔ x = .halted ∨ x = .faulted := by
  cases x <;> decide

theorem Status.ne_running_of_ended {x : Status} (h : x.ended = true) : x ≠ .running := by
  rintro rfl
  cases h

/-- An instruction is fetched from inside MEM, under every configuration. -/
theorem ip_lt_of_fetch_ok {c : Config} {s : State} {i : Instr} (h : s.fetch c = .ok i) : s.ip < c.memSize := by
  obtain ⟨rest, hdec⟩ := fetch_ok h
  by_contra hip
  have hnil : s.stream c = [] := List.eq_nil_of_length_eq_zero (by rw [length_stream]; omega)
  rw [hnil] at hdec
  cases hdec

theorem lengthOf_pos (c : Config) (h : Handler) : 0 < c.lengthOf h := by
  rw [Config.lengthOf]
  omega

/-- The measure of R87: a step that does not end the run starts inside MEM and moves ip forward. -/
theorem stepIn_ends_or_moves_forward {c : Config} {s t : State} (h : stepIn c s = .next t) :
    t.status.ended = true ∨ (t.status = .running ∧ s.ip < c.memSize ∧ s.ip < t.ip) := by
  obtain ⟨hrun, ⟨r, -, -, rfl⟩ | ⟨i, hf, he⟩⟩ := stepIn_eq_next h
  · exact .inl rfl
  obtain ⟨-, rfl⟩ | ⟨hd, -, hends⟩ := execIn_eq_next he
  · exact .inl rfl
  obtain ⟨r, -, rfl⟩ | ⟨hip, hstatus, -⟩ := hends.faults_or_goes_on
  · exact .inl rfl
  · exact .inr ⟨hstatus.trans hrun, ip_lt_of_fetch_ok hf, hip ▸ Nat.lt_add_of_pos_right (lengthOf_pos c hd)⟩

/-- One step for each byte of MEM from ip on, and one more, end a run under every configuration (R87, log 8). -/
theorem runWith_stepIn_ended (c : Config) {n : Nat} {s : State} (hrun : s.status = .running)
    (hn : c.memSize - s.ip + 1 ≤ n) : (runWith (stepIn c) n s).status.ended = true := by
  induction n generalizing s with
  | zero => omega
  | succ n ih =>
    obtain ⟨t, ht⟩ := stepIn_is_next c hrun
    rw [runWith_succ_of_next hrun ht]
    obtain hended | ⟨hrun', hin, hforward⟩ := stepIn_ends_or_moves_forward ht
    · rwa [runWith_of_not_running (Status.ne_running_of_ended hended)]
    · exact ih hrun' (by omega)

/-! When the host may act. -/

theorem whenIdle_of_running {α : Type} {s : State} (h : s.status = .running) (x : Except HostError α) :
    whenIdle s x = .error (.notAllowed .running) := by
  rw [whenIdle, if_pos h, h]

theorem whenIdle_of_not_running {α : Type} {s : State} (h : s.status ≠ .running) (x : Except HostError α) :
    whenIdle s x = x :=
  if_neg h

theorem whenIdle_eq_ok {α : Type} {s : State} {x : Except HostError α} {a : α} (h : whenIdle s x = .ok a) :
    s.status ≠ .running ∧ x = .ok a := by
  by_cases hs : s.status = .running
  · rw [whenIdle_of_running hs] at h
    cases h
  · exact ⟨hs, whenIdle_of_not_running hs x ▸ h⟩

theorem whenHalted_of_halted {α : Type} {s : State} (h : s.status = .halted) (x : Except HostError α) :
    whenHalted s x = x :=
  if_pos h

theorem whenHalted_of_not_halted {α : Type} {s : State} (h : s.status ≠ .halted) (x : Except HostError α) :
    whenHalted s x = .error (.notAllowed s.status) :=
  if_neg h

/-- HostRun is the run from the start state for the steps R87 allows, outside a run only (R192, R195). -/
theorem hostRun_eq_ok {c : Config} {s t : State} (h : hostRun s c = .ok t) :
    t = runWith (stepIn c) (c.memSize + 1) s.startRun :=
  (Except.ok.inj (whenIdle_eq_ok h).2).symm

theorem hostRun_steps_ended (c : Config) (s : State) :
    (runWith (stepIn c) (c.memSize + 1) s.startRun).status.ended = true :=
  runWith_stepIn_ended c rfl le_rfl

/-- Settles O41: `runWith_stepIn_ended` at the default configuration, by induction on the steps allowed, and from
ip 0 for HostRun. -/
theorem everyRunEnds : Obligations.EveryRunEnds := by
  refine ⟨fun s hrun _ => ?_, fun s t h => ?_⟩
  · rw [step_eq_stepIn]
    exact runWith_stepIn_ended config hrun le_rfl
  · rw [hostRun_eq_ok h]
    exact hostRun_steps_ended config s

/-- Settles O46: the run has ended after MEM_SIZE + 1 steps, and an ended run makes no further step. -/
theorem hostRunStartsAtZeroAndRunsToTheEnd : Obligations.HostRunStartsAtZeroAndRunsToTheEnd := by
  intro c s hs
  have hended := hostRun_steps_ended c s
  refine ⟨_, whenIdle_of_not_running hs _, (Status.ended_iff _).1 hended, fun n hn => ?_⟩
  obtain ⟨k, rfl⟩ := Nat.exists_eq_add_of_le hn
  exact ((runWith_add _ k s.startRun).trans (runWith_of_not_running (Status.ne_running_of_ended hended) k)).symm

end Sys2Proof.Machine
end

section
/-! SUPPORT and PROOFS. Faults (60_exceptions.md): that a faulting step changes nothing but the run-control registers
(R176, R178), and which check raises which cause, in a fetch (R171, R172) and in an instruction (R171, R173); and that
a step ends well only at the sentinel (R83, R201). -/

namespace Sys2Proof.Machine

/-! After a fault. -/

/-- Settles O22: a step is made while RUNNING only (R85). -/
theorem faultedIsAbsorbing : Obligations.FaultedIsAbsorbing := by
  intro s t hs h
  rw [(step_eq_next h).1] at hs
  cases hs

/-- Settles O20: of the three ends of a step, only a taken fault leaves STATUS FAULTED (R176), and from there no step
is made (O22). -/
theorem faultsArePrecise : Obligations.FaultsArePrecise := by
  intro s t h ht
  refine ⟨?_, fun u => faultedIsAbsorbing t u ht⟩
  obtain ⟨hrun, -⟩ := step_eq_next h
  obtain rfl | ⟨r, hr, rfl⟩ | ⟨i, hd, -, -, -, hstatus, -⟩ := step_halts_faults_or_goes_on h
  · cases ht
  · exact ⟨r.cause, r.info, hr, rfl⟩
  · rw [hstatus, hrun] at ht
    cases ht

/-! A fetch, by the byte at ip. -/

theorem fetch_eq_halt_iff {s : State} : s.fetch = .ok .halt ↔ s.ip < config.memSize ∧ s.opcodeByte = haltByte := by
  refine ⟨fun h => ?_, fun ⟨hip, hop⟩ => fetch_of_haltByte hip hop⟩
  have hip := ip_lt_of_fetch_ok h
  obtain ⟨rest, hdec⟩ := fetch_ok h
  obtain ⟨tl, hstream, -⟩ := stream_cons hip
  rw [hstream] at hdec
  obtain ⟨hop, -⟩ | ⟨row, -, hdr⟩ := decode_cons_ok hdec
  · exact ⟨hip, hop⟩
  · obtain ⟨-, hi⟩ := decodeRow_ok hdr
    cases (congrArg Instr.handler hi).trans (Handler.handler_instr ..)

/-- Settles O16: an instruction with a handler goes on or takes a fault, so a step that halts has fetched the
sentinel (`fetch_eq_halt_iff`). -/
theorem haltedOnlyAtTheSentinel : Obligations.HaltedOnlyAtTheSentinel := by
  intro s t h ht
  obtain ⟨hrun, ⟨r, -, -, rfl⟩ | ⟨i, hf, he⟩⟩ := step_eq_next h
  · cases ht
  obtain ⟨rfl, rfl⟩ | ⟨hd, -, hends⟩ := exec_eq_next he
  · obtain ⟨hip, hop⟩ := fetch_eq_halt_iff.1 hf
    exact ⟨hip, hop, rfl⟩
  obtain ⟨r, -, rfl⟩ | ⟨-, hstatus, -⟩ := hends.faults_or_goes_on
  · cases ht
  · rw [hstatus, hrun] at ht
    cases ht

/-- A byte that is neither an opcode of the default table nor the sentinel: 24 to 254 (R69). -/
def IllegalOpcode (op : Byte) : Prop := 24 ≤ op.toNat ∧ op.toNat ≤ 254

theorem decodeRow_ne_illegal (row : OpRow) (tl : List Byte) (op : Byte) : decodeRow row tl ≠ .illegal op := by
  unfold decodeRow
  split_ifs <;> nofun

/-- Only the opcode byte itself makes the decoder answer illegal. -/
theorem decode_eq_illegal {l : List Byte} {op : Byte} (h : decode l = .illegal op) :
    l.head? = some op ∧ IllegalOpcode op := by
  cases l with
  | nil => cases h
  | cons b tl =>
    have hne : b ≠ haltByte := by
      rintro rfl
      rw [decode_haltByte] at h
      cases h
    cases hrow : config.rowOf b with
    | some row =>
      rw [decode_of_rowOf_some hne hrow] at h
      exact absurd h (decodeRow_ne_illegal row tl op)
    | none =>
      rw [decode_of_rowOf_none hne hrow] at h
      obtain rfl := DecodeResult.illegal.inj h
      have hlow : 24 ≤ b.toNat := List.getElem?_eq_none_iff.1 hrow
      have hhigh : b.toNat ≠ 255 := fun hb => hne (BitVec.eq_of_toNat_eq hb)
      exact ⟨rfl, hlow, by omega⟩

/-- The MalformedProgram fault of a fetch (R172). -/
theorem fetch_of_illegalOpcode {s : State} (hip : s.ip < config.memSize) (hop : IllegalOpcode s.opcodeByte) :
    s.fetch = .error { cause := .malformedProgram, info := s.opcodeByte.toNat } := by
  obtain ⟨tl, hstream, -⟩ := stream_cons hip
  rw [State.fetch, hstream, illegalOpcodesAreRefused _ tl hop.1 hop.2]

/-- The two causes of a fetch fault (R171, R172), the second with the byte it needs. -/
theorem fetch_error_cause {s : State} {r : FaultReport} (h : s.fetch = .error r) :
    r.cause = .outOfRange ∨
    (r.cause = .malformedProgram ∧ s.ip < config.memSize ∧ IllegalOpcode s.opcodeByte) := by
  unfold State.fetch at h
  split at h <;> cases h
  · rename_i op hdec
    obtain ⟨hhead, hop⟩ := decode_eq_illegal hdec
    have hip : s.ip < config.memSize := by
      by_contra hip
      rw [stream_nil (Nat.le_of_not_lt hip)] at hhead
      cases hhead
    rw [head?_stream hip] at hhead
    obtain rfl := Option.some.inj hhead
    exact .inr ⟨rfl, hip, hop⟩
  · exact .inl rfl

/-! The causes an instruction can raise. -/

/-- What may stand in the report of a fault an instruction raises: an access outside MEM (R171), or, for VPERMD, a
selector value that is neither a lane number nor the zero selector (R173). -/
def MayRaise (i : Instr) (r : FaultReport) : Prop :=
  r.cause = .outOfRange ∨
  (r.cause = .permuteIndex ∧ i.handler = some .vpermd ∧ 8 ≤ r.info ∧ r.info ≤ 0xFFFFFFFE)

theorem u32_lt (o : LaneOrder) (b : Block) (k : Nat) : u32 o b k < 2 ^ 32 := by
  rw [u32_eq_sum_by_significance]
  have h0 := u8_lt b (4 * k + LaneOrder.place o 4 0)
  have h1 := u8_lt b (4 * k + LaneOrder.place o 4 1)
  have h2 := u8_lt b (4 * k + LaneOrder.place o 4 2)
  have h3 := u8_lt b (4 * k + LaneOrder.place o 4 3)
  omega

/-- A reported selector is a 32-bit lane and none of the good values (R130, R173). -/
theorem firstBadSelector_bounds {o : LaneOrder} {sel : Block} {x : Nat} (h : firstBadSelector o sel = some x) :
    8 ≤ x ∧ x ≤ 0xFFFFFFFE := by
  obtain ⟨k, -, rfl⟩ := List.mem_map.1 (List.mem_of_find?_eq_some h)
  have hbad : u32 o sel k ≠ zeroSelector ∧ 7 < u32 o sel k := by simpa [badSelector] using List.find?_some h
  have hlane := u32_lt o sel k
  simp only [zeroSelector] at hbad
  omega

theorem permuteChecked_report {o : LaneOrder} {sel data : Block} {r : FaultReport}
    (h : permuteChecked o sel data = .error r) :
    r.cause = .permuteIndex ∧ 8 ≤ r.info ∧ r.info ≤ 0xFFFFFFFE := by
  unfold permuteChecked at h
  split at h <;> cases h
  exact ⟨rfl, firstBadSelector_bounds ‹_›⟩

theorem readBlock_error_cause {c : Config} {m : Memory} {i : Byte} {r : FaultReport}
    (h : m.readBlock c i = .error r) : r.cause = .outOfRange := by
  cases hf : c.blockFits i with
  | true => rw [readBlock_of_fits hf] at h; cases h
  | false => rw [readBlock_of_not_fits hf] at h; cases h; rfl

theorem writeBlock_error_cause {c : Config} {m : Memory} {i : Byte} {data : Block} {r : FaultReport}
    (h : m.writeBlock c i data = .error r) : r.cause = .outOfRange := by
  cases hf : c.blockFits i with
  | true => rw [writeBlock_of_fits hf] at h; cases h
  | false => rw [writeBlock_of_not_fits hf] at h; cases h; rfl

/-- A sequence of two computations fails in the first or in the second. -/
theorem bind_eq_error {ε α β : Type} {x : Except ε α} {f : α → Except ε β} {e : ε} (h : x >>= f = .error e) :
    x = .error e ∨ ∃ a, f a = .error e := by
  cases x with
  | error _ => exact .inl (congrArg Except.error (Except.error.inj h))
  | ok a => exact .inr ⟨a, h⟩

section OperandForms

variable {h : Handler} {s t : State} (hs : s.status ≠ .faulted) (ht : t.status = .faulted)
include hs ht

theorem finish_takes_fault {r : Except FaultReport Memory} (e : s.finish config h r = .next t) :
    ∃ x, r = .error x ∧ t = s.takeFault x := by
  obtain ⟨m, -, rfl⟩ | hfault := finish_eq_next e
  · exact absurd ht hs
  · exact hfault

theorem twoBlocks_takes_fault {f : Block → Block → Except FaultReport Block} {o1 o2 o3 : Byte}
    (e : twoBlocks config h f o1 o2 o3 s = .next t) :
    ∃ r, (r.cause = .outOfRange ∨ ∃ x2 x3, f x2 x3 = .error r) ∧ t = s.takeFault r := by
  obtain ⟨r, hr, rfl⟩ := finish_takes_fault hs ht e
  refine ⟨r, ?_, rfl⟩
  obtain hr | ⟨x2, hr⟩ := bind_eq_error hr
  · exact .inl (readBlock_error_cause hr)
  obtain hr | ⟨x3, hr⟩ := bind_eq_error hr
  · exact .inl (readBlock_error_cause hr)
  obtain hr | ⟨data, hr⟩ := bind_eq_error hr
  · exact .inr ⟨x2, x3, hr⟩
  · exact .inl (writeBlock_error_cause hr)

theorem blockAndCount_takes_fault {f : Block → Nat → Block} {o1 o2 o3 : Byte}
    (e : blockAndCount config h f o1 o2 o3 s = .next t) : ∃ r, r.cause = .outOfRange ∧ t = s.takeFault r := by
  obtain ⟨r, hr, rfl⟩ := finish_takes_fault hs ht e
  refine ⟨r, ?_, rfl⟩
  obtain hr | ⟨a, hr⟩ := bind_eq_error hr
  · exact readBlock_error_cause hr
  · exact writeBlock_error_cause hr

theorem immediate_takes_fault {o1 : Byte} {imm : Block} (e : immediate config h o1 imm s = .next t) :
    ∃ r, r.cause = .outOfRange ∧ t = s.takeFault r := by
  obtain ⟨r, hr, rfl⟩ := finish_takes_fault hs ht e
  exact ⟨r, writeBlock_error_cause hr, rfl⟩

/-- Each instruction by its operand form: only VPERMD has a check of its own. -/
theorem exec_takes_fault {i : Instr} (e : exec i s = .next t) : ∃ r, MayRaise i r ∧ t = s.takeFault r := by
  cases i with
  | halt =>
    obtain rfl := Host.Outcome.next.inj e
    cases ht
  | vloadi =>
    obtain ⟨r, hr, ht⟩ := immediate_takes_fault hs ht e
    exact ⟨r, .inl hr, ht⟩
  | vsrld | vslld =>
    obtain ⟨r, hr, ht⟩ := blockAndCount_takes_fault hs ht e
    exact ⟨r, .inl hr, ht⟩
  | vpermd o1 o2 o3 =>
    rw [exec_vpermd] at e
    obtain ⟨r, hr | ⟨x2, x3, hr⟩, ht⟩ := twoBlocks_takes_fault hs ht e
    · exact ⟨r, .inl hr, ht⟩
    · obtain ⟨hcause, hinfo⟩ := permuteChecked_report hr
      exact ⟨r, .inr ⟨hcause, rfl, hinfo⟩, ht⟩
  | vmaddbw | vmaddwd | vxor | vor | vand | vaddb | vaddd | vshufb | vcmpeqb =>
    obtain ⟨r, hr | ⟨x2, x3, hr⟩, ht⟩ := twoBlocks_takes_fault hs ht e
    · exact ⟨r, .inl hr, ht⟩
    · cases hr
  | vxorc | vaddwu | vsubb | vaddw | vsubw | vsubd | vaddq | vsubq | vmullm | vmov | nop =>
    rw [exec_inert_eq_next rfl rfl e] at ht
    exact absurd ht hs

end OperandForms

/-- EVERY FAULT A STEP CAN TAKE: one of its fetch, or one that the fetched instruction may raise. -/
theorem step_takes_fault {s t : State} (h : step s = .next t) (ht : t.status = .faulted) :
    ∃ r, t = s.takeFault r ∧ (s.fetch = .error r ∨ ∃ i, s.fetch = .ok i ∧ MayRaise i r) := by
  obtain ⟨hrun, ⟨r, hf, -, rfl⟩ | ⟨i, hf, he⟩⟩ := step_eq_next h
  · exact ⟨r, rfl, .inl hf⟩
  · obtain ⟨r, hr, rfl⟩ := exec_takes_fault (by simp [hrun]) ht he
    exact ⟨r, rfl, .inr ⟨i, hf, hr⟩⟩

/-- Settles O18: no instruction raises MalformedProgram (`step_takes_fault`), and a fetch raises it exactly at an
illegal byte (`fetch_error_cause`, `fetch_of_illegalOpcode`). -/
theorem malformedProgramExactlyOnIllegalOpcodes : Obligations.MalformedProgramExactlyOnIllegalOpcodes := by
  intro s hrun
  have hraised : s.ip < config.memSize → 24 ≤ s.opcodeByte.toNat → s.opcodeByte.toNat ≤ 254 →
      step s = .next (s.faulted .malformedProgram s.opcodeByte.toNat) :=
    fun hip hlow hhigh => step_of_fetch_error hrun (fetch_of_illegalOpcode hip ⟨hlow, hhigh⟩)
  refine ⟨⟨?_, fun ⟨hip, hlow, hhigh⟩ => ⟨_, hraised hip hlow hhigh, rfl, rfl⟩⟩, hraised⟩
  rintro ⟨t, h, ht, hcause⟩
  obtain ⟨r, rfl, hf | ⟨i, -, hmay⟩⟩ := step_takes_fault h ht
  · obtain hr | ⟨-, hip, hop⟩ := fetch_error_cause hf
    · cases hr.symm.trans hcause
    · exact ⟨hip, hop⟩
  · obtain hr | ⟨hr, -⟩ := hmay <;> cases hr.symm.trans hcause

/-- Settles O21: no fetch raises PermuteIndex, and of the instructions only VPERMD does, which 0x15 selects (R66). -/
theorem permuteIndexOnlyFromVpermd : Obligations.PermuteIndexOnlyFromVpermd := by
  intro s t h ht hcause
  obtain ⟨r, rfl, hf | ⟨i, hf, hr | ⟨-, hh, hinfo⟩⟩⟩ := step_takes_fault h ht
  · obtain hr | ⟨hr, -⟩ := fetch_error_cause hf <;> cases hr.symm.trans hcause
  · cases hr.symm.trans hcause
  · have hopcode : config.opcodeOf .vpermd = 0x15 := by decide
    exact ⟨(fetch_ok_opcodeByte hf hh).trans hopcode, hinfo⟩

end Sys2Proof.Machine
end

section
/-! SUPPORT and PROOFS. The host's operations (70_reset_and_hazards.md R192 to R200): when they are refused, the state
or the bytes each answers, and that those that change the state keep the invariant (R20, R27). -/

namespace Sys2Proof.Machine

/-! Refusals. -/

/-- Settles O49: each operation asks for its STATUS before anything else (`whenIdle_of_running`,
`whenHalted_of_not_halted`). -/
theorem hostIsRefusedDuringARun : Obligations.HostIsRefusedDuringARun := fun _ =>
  ⟨fun hrun => ⟨fun _ => whenIdle_of_running hrun _, fun _ => whenIdle_of_running hrun _,
      whenIdle_of_running hrun _, fun _ _ => whenIdle_of_running hrun _⟩,
    fun hs => ⟨fun _ _ _ => whenHalted_of_not_halted hs _, whenHalted_of_not_halted hs _⟩⟩

/-! Reset and load. -/

/-- Settles O43: the fields of the reset state, whose memory lists no byte and counts as never loaded. -/
theorem resetState : Obligations.ResetState :=
  ⟨rfl, rfl, rfl, rfl, rfl, fun _ => rfl⟩

theorem hostReset_mem (s : State) : (hostReset s).mem = if s.status = .running then s.mem else State.reset.mem := rfl

/-- Settles O44: HostReset writes every field, MEM by the test of STATUS alone (`hostReset_mem`). -/
theorem hostResetAbandonsTheRun : Obligations.HostResetAbandonsTheRun :=
  fun s => ⟨rfl, fun hrun => by rw [hostReset_mem, if_pos hrun]⟩

/-- The state HostLoad leaves: the image, and the reset registers (R194). -/
def loadedWith (image : List Byte) : State := { State.reset with mem := Memory.ofImage image }

theorem hostLoad_of_not_running {image : List Byte} {s : State} (hs : s.status ≠ .running)
    (hlen : image.length = config.memSize) : hostLoad image s = .ok (loadedWith image) := by
  rw [hostLoad, whenIdle_of_not_running hs, if_pos hlen]
  rfl

theorem hostLoad_eq_ok {image : List Byte} {s t : State} (h : hostLoad image s = .ok t) :
    image.length = config.memSize ∧ t = loadedWith image := by
  obtain ⟨-, h⟩ := whenIdle_eq_ok h
  split_ifs at h with hlen
  exact ⟨hlen, (Except.ok.inj h).symm⟩

/-- Settles O45: a loaded memory reads as its image (`Memory.read_ofImage`). -/
theorem hostLoadFillsMemory : Obligations.HostLoadFillsMemory := fun image _ hs hlen =>
  ⟨loadedWith image, hostLoad_of_not_running hs hlen, fun a _ => Memory.read_ofImage image a,
    rfl, rfl, rfl, rfl, rfl⟩

/-! The input region. -/

@[simp] theorem length_inputBytes (c : Config) (data : List Byte) : (inputBytes c data).length = c.inputLen := by
  simp [inputBytes]

theorem getD_inputBytes (c : Config) (data : List Byte) {j : Nat} (hj : j < c.inputLen) :
    (inputBytes c data).getD j 0 = data.getD j 0 := by
  simp [inputBytes, List.getD_eq_getElem?_getD, hj]

/-- The state HostSetInput leaves (R196). -/
def State.withInput (s : State) (data : List Byte) : State :=
  { s with mem := s.mem.writeBytes config.inputOff (inputBytes config data) }

theorem hostSetInput_too_long {data : List Byte} {s : State} (hs : s.status ≠ .running)
    (hlen : config.inputLen < data.length) : hostSetInput data s = .error (.inputTooLong data.length) := by
  rw [hostSetInput, whenIdle_of_not_running hs, if_pos hlen]

theorem hostSetInput_of_fits {data : List Byte} {s : State} (hs : s.status ≠ .running)
    (hlen : data.length ≤ config.inputLen) : hostSetInput data s = .ok (s.withInput data) := by
  rw [hostSetInput, whenIdle_of_not_running hs, if_neg (Nat.not_lt.2 hlen)]
  rfl

theorem hostSetInput_eq_ok {data : List Byte} {s t : State} (h : hostSetInput data s = .ok t) :
    t = s.withInput data := by
  obtain ⟨-, h⟩ := whenIdle_eq_ok h
  split_ifs at h
  exact (Except.ok.inj h).symm

/-- Inside the region: the data, and 0 behind it. -/
theorem read_withInput_inside (s : State) (data : List Byte) {j : Nat} (hj : j < config.inputLen) :
    (s.withInput data).mem.read (config.inputOff + j) = if j < data.length then data.getD j 0 else 0 := by
  have hread : (s.withInput data).mem.read (config.inputOff + j) = data.getD j 0 := by
    rw [State.withInput, Memory.read_writeBytes_inside _ _ _ _ (by rwa [length_inputBytes]), getD_inputBytes _ _ hj]
  rw [hread]
  split_ifs with h
  · rfl
  · exact List.getD_eq_default _ _ (Nat.le_of_not_lt h)

theorem read_withInput_outside (s : State) (data : List Byte) {a : Nat}
    (ha : a < config.inputOff ∨ config.inputOff + config.inputLen ≤ a) :
    (s.withInput data).mem.read a = s.mem.read a :=
  Memory.read_writeBytes_outside _ _ _ _ (by rwa [length_inputBytes])

/-- Settles O47: a write of INPUT_LEN bytes at INPUT_OFF, of which those past the data are 0. -/
theorem hostSetInputWritesTheInputRegion : Obligations.HostSetInputWritesTheInputRegion := fun data s hs =>
  ⟨hostSetInput_too_long hs, fun hlen =>
    ⟨s.withInput data, hostSetInput_of_fits hs hlen, fun _ => read_withInput_inside s data,
      fun _ => read_withInput_outside s data, rfl, rfl, rfl, rfl, rfl⟩⟩

/-! The invariant. -/

theorem State.Inv.hostReset {s : State} (h : s.Inv) : (hostReset s).Inv := by
  have ⟨hm, _, _⟩ := h
  refine inv_of_clear ?_ (Nat.zero_le _) nofun ⟨rfl, rfl, rfl⟩
  rw [hostReset_mem]
  split_ifs
  · exact hm
  · rfl

theorem loadedWith_inv {image : List Byte} (hlen : image.length = config.memSize) : (loadedWith image).Inv :=
  State.inv_of_clear (Memory.ofImage_wf hlen.le) (Nat.zero_le _) nofun ⟨rfl, rfl, rfl⟩

/-- The input region lies inside MEM (R7). -/
theorem State.Inv.withInput {s : State} (h : s.Inv) (data : List Byte) : (s.withInput data).Inv := by
  obtain ⟨hm, hregs⟩ := h
  exact ⟨Memory.writeBytes_wf hm (by rw [length_inputBytes]; decide), hregs⟩

theorem State.Inv.startRun {s : State} (h : s.Inv) : s.startRun.Inv :=
  have ⟨hm, _, _⟩ := h
  inv_of_clear hm (Nat.zero_le _) nofun ⟨rfl, rfl, rfl⟩

/-- Settles O40: a load, a reset and the start of a run clear the fault registers, an input is written inside MEM,
and a run keeps what every step keeps (O39). -/
theorem hostOperationsKeepTheInvariant : Obligations.HostOperationsKeepTheInvariant := by
  intro s hinv
  refine ⟨hinv.hostReset, fun image t h => ?load, fun data t h => ?setInput, fun t h => ?run⟩
  case load =>
    obtain ⟨hlen, rfl⟩ := hostLoad_eq_ok h
    exact loadedWith_inv hlen
  case setInput =>
    rw [hostSetInput_eq_ok h]
    exact hinv.withInput data
  case run =>
    rw [hostRun_eq_ok h, ← step_eq_stepIn]
    exact runWith_keeps everyStepKeepsTheInvariant _ hinv.startRun

/-! Reading back. -/

theorem hostReadMem_inside {s : State} (hs : s.status ≠ .running) {a n : Nat} (h : a + n ≤ config.memSize) :
    hostReadMem a n s = .ok (s.mem.bytes a n) := by
  rw [hostReadMem, whenIdle_of_not_running hs, if_pos ((inRange_iff _ _ _).2 h)]

theorem hostReadMem_outside {s : State} (hs : s.status ≠ .running) {a n : Nat} (h : config.memSize < a + n) :
    hostReadMem a n s = .error (.outOfRange a) := by
  rw [hostReadMem, whenIdle_of_not_running hs, if_neg fun hin => Nat.not_le.2 h ((inRange_iff _ _ _).1 hin)]

theorem hostBlock_of_fits {s : State} {i : Byte} (h : config.blockFits i = true) :
    hostBlock config s i = .ok (s.mem.bytes (config.blockOffset i) 32) := by
  rw [hostBlock, readBlock_of_fits h]

theorem Memory.take_bytes (m : Memory) (a : Nat) {n k : Nat} (h : k ≤ n) : (m.bytes a n).take k = m.bytes a k := by
  rw [bytes, ← List.map_take, List.take_range, Nat.min_eq_left h, bytes]

theorem Memory.bytes_eq_bytes_iff (m : Memory) (a b n : Nat) :
    m.bytes a n = m.bytes b n ↔ ∀ j, j < n → m.read (a + j) = m.read (b + j) := by
  simp only [bytes, List.map_inj_left, List.mem_range]

theorem hostVerify_of_halted {s : State} (hs : s.status = .halted) {va vb : Byte} {len : Nat}
    (ha : config.blockFits va = true) (hb : config.blockFits vb = true) (hlen : len ≤ 32) :
    hostVerify va vb len s =
      .ok (s.mem.bytes (config.blockOffset va) len == s.mem.bytes (config.blockOffset vb) len) := by
  rw [hostVerify, whenHalted_of_halted hs, hostBlock_of_fits ha, hostBlock_of_fits hb, ← Memory.take_bytes _ _ hlen,
    ← Memory.take_bytes _ _ hlen]
  rfl

/-- With the defaults RESULT_A is block 1 and RESULT_B is block 0x1F, and both exist. -/
theorem hostResult_of_halted {s : State} (hs : s.status = .halted) :
    hostResult s =
      .ok (xorBytes (s.mem.bytes (config.blockOffset 0x1F) 32) (s.mem.bytes (config.blockOffset 1) 32)) := by
  have ha : config.blockFits 1 = true := by decide
  have hb : config.blockFits 0x1F = true := by decide
  rw [hostResult, whenHalted_of_halted hs, config_resultA, config_resultB, hostBlock_of_fits ha, hostBlock_of_fits hb]
  rfl

theorem getD_xorBytes (b a : Block) {i : Nat} (hi : i < 32) : (xorBytes b a).getD i 0 = a.getD i 0 ^^^ b.getD i 0 := by
  apply BitVec.eq_of_toNat_eq
  rw [xorBytes, toNat_getD_pack8 _ hi, u8, u8, ← BitVec.toNat_xor]
  exact Nat.mod_eq_of_lt (BitVec.isLt _)

/-- Settles O48: each answer is the bytes MEM reads as, and lists of such bytes agree exactly byte for byte. -/
theorem hostReadsBack : Obligations.HostReadsBack := by
  refine fun s => ⟨rfl, fun hs a n hin => ?inside, fun hs _ _ => hostReadMem_outside hs, fun hs =>
    ⟨?verify, ?result⟩⟩
  case inside =>
    exact ⟨_, hostReadMem_inside hs hin, Memory.length_bytes _ _ _, fun _ => Memory.getD_bytes _ _ _ _⟩
  case verify =>
    intro va vb len ha hb hlen
    exact ⟨_, hostVerify_of_halted hs ha hb hlen, beq_iff_eq.trans (Memory.bytes_eq_bytes_iff _ _ _ _)⟩
  case result =>
    refine ⟨_, hostResult_of_halted hs, length_pack8 _, fun j hj => ?_⟩
    rw [getD_xorBytes _ _ hj, Memory.getD_bytes _ _ _ _ hj, Memory.getD_bytes _ _ _ _ hj]
    rfl

end Sys2Proof.Machine
end
